-- ==== Sys2Proof/Word.lean ====
section
/-! DEFINITION. The widths of the block (spec/00_scope.md R6, spec/30_encoding.md R39). -/

namespace Sys2Proof

/-- A byte is 8 bits (00_scope.md R6). -/
abbrev Byte := BitVec 8

/-- A word is 32 bits (00_scope.md R6). -/
abbrev Word := BitVec 32

/-- The 8-bit `idx` operand of a command (30_encoding.md R39). -/
abbrev Index := BitVec 8

/-- A command word is 48 bits (30_encoding.md R39). -/
abbrev CommandWord := BitVec 48

end Sys2Proof
end

