-- ==== Sys2Proof/Syntax.lean ====
section
/-! DEFINITION. The eleven commands of the block (spec/30_encoding.md R41), one constructor for each row of
spec/opcode_table.json, with the operands each command word carries. -/

namespace Sys2Proof

/-- A command with its operands as the command word holds them: an `idx` operand is 8 bits used as it stands (R42), a
`data` operand is 32 bits used as it stands (R43). A field that R41 marks as none is no operand; it is reserved and must
be zero (R44), so it is not part of the syntax. -/
inductive Instr where
  /-- `NOP` (40_host_access.md R50). -/
  | nop
  /-- `RDR r`: read register or view `r` (R51). -/
  | rdr (r : Index)
  /-- `WRR r, d`: write register `r` (R52). -/
  | wrr (r : Index) (d : Word)
  /-- `LDB a`: load the byte at buffer address `a` (R53). -/
  | ldb (a : Index)
  /-- `STB a, d`: store a byte at buffer address `a` (R54). -/
  | stb (a : Index) (d : Word)
  /-- `LDW n`: load the word of index `n` (R55). -/
  | ldw (n : Index)
  /-- `STW n, d`: store the word of index `n` (R56). -/
  | stw (n : Index) (d : Word)
  /-- `UNPACK`: `IVW` into the field registers (41_bitcontainer.md R61). -/
  | unpack
  /-- `PACK`: the field registers into `IVW` (R62). -/
  | pack
  /-- `XFORM n`: transform the first `n` bytes of the buffer (42_cipher.md R67). -/
  | xform (n : Word)
  /-- `ORDER`: the order selected by `PV` (43_order_selector.md R75). -/
  | order
deriving DecidableEq, Repr

end Sys2Proof
end

