-- ==== Sys2Proof/Decode.lean ====
section
/-! DEFINITION. From a 48-bit command word to a command, and back (spec/30_encoding.md R39 to R46, steps 1 and 2 of R46).
The checks of steps 3 to 5 look at operand values and stand in the meanings, as the pseudocode of R50 to R75 has them. -/

namespace Sys2Proof

/-- The opcode, bits 47:40 (R39). -/
def opField (cw : CommandWord) : BitVec 8 := cw.extractLsb' 40 8

/-- The index operand, bits 39:32 (R39). -/
def idxField (cw : CommandWord) : Index := cw.extractLsb' 32 8

/-- The data operand, bits 31:0 (R39). -/
def dataField (cw : CommandWord) : Word := cw.extractLsb' 0 32

/-- Why a word is not a command. All three are the cause `E_ILLEGAL` (60_exceptions.md R78). -/
inductive DecodeError where
  /-- The opcode is not one of the eleven of R41 (R45). -/
  | unknownOpcode
  /-- The command has no `idx` operand and `idx` is not 0 (R44). -/
  | reservedIdx
  /-- The command has no `data` operand and `data` is not 0 (R44). -/
  | reservedData
deriving DecidableEq, Repr

/-- A command with neither operand: both fields are reserved (R44). -/
def noOperands (idx : Index) (data : Word) (i : Instr) : Except DecodeError Instr :=
  if idx ≠ 0 then .error .reservedIdx else if data ≠ 0 then .error .reservedData else .ok i

/-- A command with an `idx` operand only: `data` is reserved (R44). -/
def noData (data : Word) (i : Instr) : Except DecodeError Instr :=
  if data ≠ 0 then .error .reservedData else .ok i

/-- A command with a `data` operand only: `idx` is reserved (R44). -/
def noIdx (idx : Index) (i : Instr) : Except DecodeError Instr :=
  if idx ≠ 0 then .error .reservedIdx else .ok i

/-- Decoding, total on the command words: the opcode map of R41, matching all 8 bits of `op`. -/
def decode (cw : CommandWord) : Except DecodeError Instr :=
  let idx := idxField cw
  let data := dataField cw
  match (opField cw).toNat with
  | 0x00 => noOperands idx data .nop
  | 0x01 => noData data (.rdr idx)
  | 0x02 => .ok (.wrr idx data)
  | 0x03 => noData data (.ldb idx)
  | 0x04 => .ok (.stb idx data)
  | 0x05 => noData data (.ldw idx)
  | 0x06 => .ok (.stw idx data)
  | 0x10 => noOperands idx data .unpack
  | 0x11 => noOperands idx data .pack
  | 0x20 => noIdx idx (.xform data)
  | 0x30 => noOperands idx data .order
  | _ => .error .unknownOpcode

/-- The command word of three fields: `op` in bits 47:40, `idx` in bits 39:32, `data` in bits 31:0 (R39). -/
def commandWord (op : BitVec 8) (idx : Index) (data : Word) : CommandWord :=
  data.setWidth 48 ||| idx.setWidth 48 <<< 32 ||| op.setWidth 48 <<< 40

/-- The command word of a command (R41). An operand the command does not have is encoded as 0 (R44, R47). -/
def encode : Instr → CommandWord
  | .nop => commandWord 0x00 0 0
  | .rdr r => commandWord 0x01 r 0
  | .wrr r d => commandWord 0x02 r d
  | .ldb a => commandWord 0x03 a 0
  | .stb a d => commandWord 0x04 a d
  | .ldw n => commandWord 0x05 n 0
  | .stw n d => commandWord 0x06 n d
  | .unpack => commandWord 0x10 0 0
  | .pack => commandWord 0x11 0 0
  | .xform n => commandWord 0x20 0 n
  | .order => commandWord 0x30 0 0

/-- The command word whose bits are `w`, bit 0 the least significant, every bit from `nbits` on zero (log entry 15). -/
def tableWord (nbits w : Nat) : CommandWord := BitVec.ofNat 48 (w % 2 ^ nbits)

/-- The command the decoder reads from the word whose bits are `w`. -/
def decodeTableWord (nbits w : Nat) : Option Instr :=
  match decode (tableWord nbits w) with
  | .ok i => some i
  | .error _ => none

/-- One row of spec/opcode_table.json: the bits of a command word that are fixed and their values. -/
structure OpcodeRow where
  mask : CommandWord
  pattern : CommandWord
deriving DecidableEq, Repr

/-- The `mask` and `match` columns of spec/opcode_table.json, row by row, kept apart from `decode` so that the two can
be held against each other. -/
def opcodeRows : List OpcodeRow :=
  [⟨0xFFFFFFFFFFFF, 0x000000000000⟩, ⟨0xFF00FFFFFFFF, 0x010000000000⟩, ⟨0xFF0000000000, 0x020000000000⟩,
   ⟨0xFF00FFFFFFFF, 0x030000000000⟩, ⟨0xFF0000000000, 0x040000000000⟩, ⟨0xFF00FFFFFFFF, 0x050000000000⟩,
   ⟨0xFF0000000000, 0x060000000000⟩, ⟨0xFFFFFFFFFFFF, 0x100000000000⟩, ⟨0xFFFFFFFFFFFF, 0x110000000000⟩,
   ⟨0xFFFF00000000, 0x200000000000⟩, ⟨0xFFFFFFFFFFFF, 0x300000000000⟩]

end Sys2Proof
end

