-- ==== Sys2Proof/Config.lean ====
section
/-! DEFINITION. What is fixed for one block and is no state (spec/10_state.md R20): the buffer size and the open
parameter `ORDER_TABLE`. The field geometry, which is constant too, stands in Machine/Operands.lean. -/

namespace Sys2Proof

/-- The four substructure types (43_order_selector.md R71). -/
inductive SubType where
  | growth
  | attack
  | effortValues
  | misc
deriving DecidableEq, Repr

/-- An order that is a permutation of the four types, named by its letters at positions 0 to 3 (R71, R72: "there are 24
such values"). The constraint of R73 on a table entry, each of the four types exactly once, holds of every value of this
type and of nothing else. -/
inductive Order where
  | gaem | game | geam | gema | gmae | gmea
  | agem | agme | aegm | aemg | amge | ameg
  | egam | egma | eagm | eamg | emga | emag
  | mgae | mgea | mage | maeg | mega | meag
deriving DecidableEq, Repr, Inhabited

namespace Config

/-- `BUF_BYTES`, the size of the data buffer: 48 for this hardware (00_scope.md R7). -/
abbrev bufBytes : Nat := 48

/-- `ORDER_TABLE`, the open parameter of 00_scope.md R8 and 43_order_selector.md R73: 24 entries, each a permutation of
the four types, and nothing more is known of it (log entry 5). No body: a claim that holds of this constant holds of every
table that meets the constraint. -/
opaque orderTable : Fin 24 → Order

end Config

end Sys2Proof
end

