-- ==== Sys2Proof/Machine/State.lean ====
section
/-! DEFINITION. The state of the block (spec/10_state.md R10) with the two ports as plain data, and the reasons a step can
stop. -/

namespace Sys2Proof.Machine

/-- The field register file `F[0..7]`, each register exactly as wide as its field (10_state.md R16). -/
structure Fields where
  f0 : BitVec 5
  f1 : BitVec 5
  f2 : BitVec 5
  f3 : BitVec 5
  f4 : BitVec 5
  f5 : BitVec 5
  f6 : BitVec 1
  f7 : BitVec 1
deriving DecidableEq, Repr

/-- A response: the port fields `rsp_err` and `rsp_data` (30_encoding.md R40). -/
structure Response where
  err : BitVec 4
  data : Word
deriving DecidableEq, Repr

/-- The three causes of a fault (60_exceptions.md R78). A fault of the block is no stop of the model: it is taken, by
`raiseFault`, and the next state holds what it recorded. -/
inductive Cause where
  /-- `E_ALIGN`: the length given to `XFORM` is no multiple of 4. -/
  | align
  /-- `E_ILLEGAL`: the command word is not a command of the block. -/
  | illegal
  /-- `E_RANGE`: an operand is well-formed but outside what the block holds. -/
  | range
deriving DecidableEq, Repr

/-- One thing the host does at the ports; nothing else changes the block (00_scope.md R4, 60_exceptions.md R86). -/
inductive HostEvent where
  /-- The host issues a command word (30_encoding.md R38). -/
  | command (cw : CommandWord)
  /-- The host drives `rst` (70_reset_and_hazards.md R91). -/
  | reset
  /-- The host issues a command word and drives `rst` before the answer: the command is abandoned (R91). -/
  | issueThenReset (cw : CommandWord)
deriving DecidableEq, Repr

/-- The data buffer `BUF` (10_state.md R17): (address, byte) pairs. An address that is not listed reads 0, the reset value
of every byte (R23). The canonical form is `Buffer.wf`. -/
abbrev Buffer := List Host.Cell

/-- The canonical form: addresses strictly rising and inside the buffer, no entry that an unlisted address would read as,
so that buffers with the same bytes are the same data. -/
abbrev Buffer.wf (m : Buffer) : Prop :=
  m.Pairwise (fun c c' => c.1 < c'.1) ∧ ∀ c ∈ m, c.1 < Config.bufBytes ∧ c.2 ≠ 0

/-- The architectural state is the first six fields, "and nothing else" (10_state.md R10). The last two are the model's
own and stand for the command port and the response port (log entries 1 and 2). -/
structure State where
  /-- `PV`, the personality value (R11). -/
  pv : Word
  /-- `OTID`, the original trainer id (R12). -/
  otid : Word
  /-- `IVW`, the BitContainer's packed word (R14). -/
  ivw : Word
  /-- `ERR`, the cause of the first fault since reset (R15). -/
  err : BitVec 4
  /-- `F[0..7]`, the field registers (R16). -/
  f : Fields
  /-- `BUF`, the data buffer (R17). -/
  buf : Buffer
  /-- What the host will still do at the ports, the next first. -/
  port : List HostEvent
  /-- The responses delivered since the last reset, the newest first. -/
  responses : List Response
deriving DecidableEq, Repr

/-- All field registers zero (R23). -/
def Fields.zero : Fields := ⟨0, 0, 0, 0, 0, 0, 0, 0⟩

/-- The machine right after reset: "every piece of state has a defined value, and it is zero" (10_state.md R23,
70_reset_and_hazards.md R92); nothing is issued and nothing is answered. -/
def State.reset : State :=
  { pv := 0, otid := 0, ivw := 0, err := 0, f := Fields.zero, buf := [], port := [], responses := [] }

/-- Reasons for the model to stop. There are none: every fault the spec names is taken and leaves a next state
(60_exceptions.md R83, R84), no command hangs and none is undefined (30_encoding.md R45). Safe: nothing stops (log entry
10). -/
inductive Fault where
deriving DecidableEq, Repr

/-- Reasons for the model to give no meaning. -/
inductive Refusal where
  /-- Raised by an arm of `exec` whose instruction has no meaning in the model. No arm raises it. Safe: it stops. -/
  | notModelled (mnemonic : String)
deriving DecidableEq, Repr

end Sys2Proof.Machine
end

