-- ==== Sys2Proof/Machine/Flags.lean ====
section
/-! DEFINITION. The only status the block keeps is `ERR` (spec/10_state.md R22): the codes of the causes and how a fault
latches one. There is no condition code, carry, zero, sign or overflow flag. -/

namespace Sys2Proof.Machine

/-- The code of a cause (60_exceptions.md R78). -/
def causeCode : Cause → BitVec 4
  | .align => 1
  | .illegal => 2
  | .range => 3

/-- `ERR` after a fault: the first cause sticks (60_exceptions.md R83, R85; 10_state.md R15). Any value that is not 0 is
kept, so also the values 4 to 15, which no run reaches (log entry 13). -/
def latchErr (err : BitVec 4) (c : Cause) : BitVec 4 :=
  if err = 0 then causeCode c else err

end Sys2Proof.Machine
end

