-- ==== Sys2Proof/Machine/Ops.lean ====
section
/-! DEFINITION. The named operations over the buffer, the registers and the ports; the fault entry that every command
shares; reset. -/

namespace Sys2Proof.Machine

/-! ### The buffer -/

/-- `BUF[a]`, which is `MemRead(a, 1)` (20_memory.md R26). An address that is not listed reads 0 (10_state.md R23). -/
def readByte : Buffer → Nat → Byte
  | [], _ => 0
  | c :: m, a => if c.1 = a then c.2 else readByte m a

/-- An entry at the front of a canonical list, left out where it says what an unlisted address reads as. -/
def consCell (a : Nat) (v : Byte) (m : Buffer) : Buffer := if v = 0 then m else (a, v) :: m

/-- `BUF[a] <- v`, which is `MemWrite(a, 1, v)` (20_memory.md R27). It keeps the canonical form. -/
def writeByte : Buffer → Nat → Byte → Buffer
  | [], a, v => consCell a v []
  | c :: m, a, v =>
    if a < c.1 then consCell a v (c :: m)
    else if a = c.1 then consCell a v m
    else c :: writeByte m a v

/-- Byte `j` of a word: bits `8j+7 : 8j`, the least significant byte first (20_memory.md R26, R27). -/
def byteOf (v : Word) (j : Nat) : Byte := v.extractLsb' (8 * j) 8

/-- The word of four bytes, the least significant first (20_memory.md R26). -/
def wordOf (b0 b1 b2 b3 : Byte) : Word :=
  b0.setWidth 32 ||| b1.setWidth 32 <<< 8 ||| b2.setWidth 32 <<< 16 ||| b3.setWidth 32 <<< 24

/-- `MemRead(a, 4)`: the byte at the lowest address is the least significant (20_memory.md R26). -/
def readWord (m : Buffer) (a : Nat) : Word :=
  wordOf (readByte m a) (readByte m (a + 1)) (readByte m (a + 2)) (readByte m (a + 3))

/-- `MemWrite(a, 4, v)`, little-endian (20_memory.md R27). -/
def writeWord (m : Buffer) (a : Nat) (v : Word) : Buffer :=
  writeByte (writeByte (writeByte (writeByte m a (byteOf v 0)) (a + 1) (byteOf v 1)) (a + 2) (byteOf v 2)) (a + 3)
    (byteOf v 3)

/-! ### Registers -/

/-- `KeyOf(otid, pv)` (42_cipher.md R64). -/
def keyOf (otid pv : Word) : Word := otid ^^^ pv

/-- The `KEY` view: computed at each read from the two registers, never stored (10_state.md R13). -/
def State.key (s : State) : Word := keyOf s.otid s.pv

def State.setPv (s : State) (v : Word) : State := { s with pv := v }
def State.setOtid (s : State) (v : Word) : State := { s with otid := v }
def State.setIvw (s : State) (v : Word) : State := { s with ivw := v }
def State.setFields (s : State) (v : Fields) : State := { s with f := v }
def State.setBuf (s : State) (m : Buffer) : State := { s with buf := m }

/-- Field register `i`, zero-extended to 32 bits (10_state.md R16, R18). -/
def getField (f : Fields) : Fin 8 → Word
  | 0 => f.f0.setWidth 32
  | 1 => f.f1.setWidth 32
  | 2 => f.f2.setWidth 32
  | 3 => f.f3.setWidth 32
  | 4 => f.f4.setWidth 32
  | 5 => f.f5.setWidth 32
  | 6 => f.f6.setWidth 32
  | 7 => f.f7.setWidth 32

/-- `F[i] <- data[4:0]` or `data[0]` (40_host_access.md R52). `writeReg` gives it only values that fit. -/
def setField (f : Fields) (i : Fin 8) (d : Word) : Fields :=
  match i with
  | 0 => { f with f0 := d.setWidth 5 }
  | 1 => { f with f1 := d.setWidth 5 }
  | 2 => { f with f2 := d.setWidth 5 }
  | 3 => { f with f3 := d.setWidth 5 }
  | 4 => { f with f4 := d.setWidth 5 }
  | 5 => { f with f5 := d.setWidth 5 }
  | 6 => { f with f6 := d.setWidth 1 }
  | 7 => { f with f7 := d.setWidth 1 }

/-! ### Responses and faults -/

/-- `rsp <- (0, v)`: the one response of a command that completes (30_encoding.md R40). -/
def State.respond (s : State) (v : Word) : State := { s with responses := ⟨0, v⟩ :: s.responses }

/-- Fault entry (60_exceptions.md R83), the whole of taking an exception: no register, field register or byte of `BUF`
changes; `ERR` takes the cause if it was 0; the response is `(c, 0)`. Nothing else happens: no mode, mask, stack or
transfer of control. There is no return from it and nothing to restore (R84): the next command executes normally. -/
def raiseFault (c : Cause) (s : State) : State :=
  { s with err := latchErr s.err c, responses := ⟨causeCode c, 0⟩ :: s.responses }

/-- The outcome of a command that completes with response data `v`. -/
def complete (v : Word) (s : State) : Host.Outcome State Fault Refusal := .next (s.respond v)

/-- The outcome of a command that faults with cause `c`: the fault is taken and the block goes on (R84). -/
def takeFault (c : Cause) (s : State) : Host.Outcome State Fault Refusal := .next (raiseFault c s)

/-- A word that is no command: unknown opcode, or a reserved field that is not zero. All are `E_ILLEGAL` (30_encoding.md
R44, R45; 60_exceptions.md R78). -/
def rejectCause : DecodeError → Cause
  | .unknownOpcode => .illegal
  | .reservedIdx => .illegal
  | .reservedData => .illegal

/-! ### The ports and reset -/

/-- The host issues the command word `cw` before whatever else it does. -/
def State.issue (s : State) (cw : CommandWord) : State := { s with port := .command cw :: s.port }

/-- The events after the first: what is left once the block has taken one. -/
def State.withPort (s : State) (p : List HostEvent) : State := { s with port := p }

/-- Reset maps every state to the one reset state (70_reset_and_hazards.md R91); what the host does next is the host's and
stays. -/
def resetBlock (s : State) : State := State.reset.withPort s.port

end Sys2Proof.Machine
end

