-- ==== Sys2Proof/Machine/Operands.lean ====
section
/-! DEFINITION. The operand forms: a register index, a byte address, a word index, a byte length, a byte to store
(spec/30_encoding.md R42, R43), each with the checks of R46 it needs. -/

namespace Sys2Proof.Machine

/-- `OFF[i]`, the bit offset of field `i` in the BitContainer word (41_bitcontainer.md R58). -/
def fieldOffset : Fin 8 → Nat
  | 0 => 0
  | 1 => 5
  | 2 => 10
  | 3 => 15
  | 4 => 20
  | 5 => 25
  | 6 => 30
  | 7 => 31

/-- `WID[i]`, the width of field `i` (41_bitcontainer.md R58; 10_state.md R16). -/
def fieldWidth : Fin 8 → Nat
  | 0 => 5
  | 1 => 5
  | 2 => 5
  | 3 => 5
  | 4 => 5
  | 5 => 5
  | 6 => 1
  | 7 => 1

/-- What a register index can name (10_state.md R18). -/
inductive Reg where
  | pv
  | otid
  | key
  | ivw
  | err
  | field (i : Fin 8)
deriving DecidableEq, Repr

/-- The register index map of 10_state.md R18. -/
def regOf (r : Index) : Option Reg :=
  match r.toNat with
  | 0x00 => some .pv
  | 0x01 => some .otid
  | 0x02 => some .key
  | 0x03 => some .ivw
  | 0x04 => some .err
  | 0x10 => some (.field 0)
  | 0x11 => some (.field 1)
  | 0x12 => some (.field 2)
  | 0x13 => some (.field 3)
  | 0x14 => some (.field 4)
  | 0x15 => some (.field 5)
  | 0x16 => some (.field 6)
  | 0x17 => some (.field 7)
  | _ => none

/-- The value `RDR` returns, zero-extended (40_host_access.md R51). Reading changes nothing. -/
def readReg (s : State) : Reg → Word
  | .pv => s.pv
  | .otid => s.otid
  | .key => s.key
  | .ivw => s.ivw
  | .err => s.err.setWidth 32
  | .field i => getField s.f i

/-- The register write of `WRR` (40_host_access.md R52): read-only indices are illegal; a value too wide for a field
register is out of range and is neither truncated nor spilt into a neighbour. -/
def writeReg (s : State) (r : Reg) (d : Word) : Except Cause State :=
  match r with
  | .pv => .ok (s.setPv d)
  | .otid => .ok (s.setOtid d)
  | .key => .error .illegal
  | .ivw => .ok (s.setIvw d)
  | .err => .error .illegal
  | .field i =>
    if d.toNat < 2 ^ fieldWidth i then .ok (s.setFields (setField s.f i d)) else .error .range

/-- The byte address of `LDB` and `STB`: the index as it stands, below `BUF_BYTES` (20_memory.md R33). -/
def byteAddress (a : Index) : Except Cause Nat :=
  if a.toNat < Config.bufBytes then .ok a.toNat else .error .range

/-- The byte address `4n` of the word index `n` of `LDW` and `STW`, `n` below `BUF_BYTES/4`; no wrap-around
(30_encoding.md R42; 20_memory.md R29, R33). -/
def wordAddress (n : Index) : Except Cause Nat :=
  if n.toNat < Config.bufBytes / 4 then .ok (4 * n.toNat) else .error .range

/-- The byte that `STB` stores: `data[7:0]`, and `data` at most 0xFF (30_encoding.md R43; 20_memory.md R30). -/
def byteOperand (d : Word) : Except Cause Byte :=
  if d.toNat ≤ 0xFF then .ok (d.setWidth 8) else .error .range

/-- How many words `XFORM n` transforms: `n` a multiple of 4, checked first, and at most `BUF_BYTES` (42_cipher.md R67;
30_encoding.md R46). -/
def transformLength (n : Word) : Except Cause Nat :=
  if n.toNat % 4 ≠ 0 then .error .align
  else if n.toNat ≤ Config.bufBytes then .ok (n.toNat / 4)
  else .error .range

end Sys2Proof.Machine
end

