-- ==== Sys2Proof/Machine/BitContainer.lean ====
section
/-! DEFINITION. The bit-field packer and unpacker (spec/41_bitcontainer.md R58 to R63). -/

namespace Sys2Proof.Machine

/-- `BitDecode(w)`: `f[i] = (w >> OFF[i]) AND (2^WID[i] - 1)` (R59). Narrowing to the field register keeps exactly the
masked bits. -/
def bitDecode (w : Word) : Fields :=
  { f0 := (w >>> fieldOffset 0).setWidth 5
    f1 := (w >>> fieldOffset 1).setWidth 5
    f2 := (w >>> fieldOffset 2).setWidth 5
    f3 := (w >>> fieldOffset 3).setWidth 5
    f4 := (w >>> fieldOffset 4).setWidth 5
    f5 := (w >>> fieldOffset 5).setWidth 5
    f6 := (w >>> fieldOffset 6).setWidth 1
    f7 := (w >>> fieldOffset 7).setWidth 1 }

/-- Field `i` zero-extended and shifted to its place (R60). -/
def placeField (f : Fields) (i : Fin 8) : Word := getField f i <<< fieldOffset i

/-- `BitEncode(f)`: the OR of the eight fields in their places (R60). -/
def bitEncode (f : Fields) : Word :=
  placeField f 0 ||| placeField f 1 ||| placeField f 2 ||| placeField f 3 ||| placeField f 4 ||| placeField f 5 |||
    placeField f 6 ||| placeField f 7

/-- `UNPACK` (R61): all eight field registers, `IVW` unchanged. -/
def execUnpack (s : State) : Host.Outcome State Fault Refusal := complete 0 (s.setFields (bitDecode s.ivw))

/-- `PACK` (R62): all 32 bits of `IVW`, the field registers unchanged. -/
def execPack (s : State) : Host.Outcome State Fault Refusal := complete 0 (s.setIvw (bitEncode s.f))

end Sys2Proof.Machine
end

