-- ==== Sys2Proof/Machine/Cipher.lean ====
section
/-! DEFINITION. The XOR engine (spec/42_cipher.md R64 to R70). -/

namespace Sys2Proof.Machine

/-- `XformWord(w, k)` (R65). -/
def xformWord (w k : Word) : Word := w ^^^ k

/-- The loop of R67: words 0 to `count - 1` of the buffer, in sequence, each replaced by its transform under `k`. -/
def xformWords (k : Word) : Nat → Buffer → Buffer
  | 0, m => m
  | i + 1, m =>
    let m' := xformWords k i m
    writeWord m' (4 * i) (xformWord (readWord m' (4 * i)) k)

/-- `XFORM n` (R67): the key is read once, when the command executes (R70). On a fault no byte changes. -/
def execXform (n : Word) (s : State) : Host.Outcome State Fault Refusal :=
  match transformLength n with
  | .ok count => complete 0 (s.setBuf (xformWords s.key count s.buf))
  | .error c => takeFault c s

end Sys2Proof.Machine
end

