-- ==== Sys2Proof/Machine/HostAccess.lean ====
section
/-! DEFINITION. The seven host access commands (spec/40_host_access.md R50 to R57). The reserved-field checks of their
pseudocode are `decode`'s. -/

namespace Sys2Proof.Machine

/-- `NOP` neither reads nor writes any state (R50). -/
def execNop (s : State) : Host.Outcome State Fault Refusal := complete 0 s

/-- `RDR r` (R51). -/
def execRdr (r : Index) (s : State) : Host.Outcome State Fault Refusal :=
  match regOf r with
  | some reg => complete (readReg s reg) s
  | none => takeFault .illegal s

/-- `WRR r, d` (R52). -/
def execWrr (r : Index) (d : Word) (s : State) : Host.Outcome State Fault Refusal :=
  match regOf r with
  | some reg =>
    match writeReg s reg d with
    | .ok t => complete 0 t
    | .error c => takeFault c s
  | none => takeFault .illegal s

/-- `LDB a` (R53): the byte, zero-extended. -/
def execLdb (a : Index) (s : State) : Host.Outcome State Fault Refusal :=
  match byteAddress a with
  | .ok addr => complete ((readByte s.buf addr).setWidth 32) s
  | .error c => takeFault c s

/-- `STB a, d` (R54). -/
def execStb (a : Index) (d : Word) (s : State) : Host.Outcome State Fault Refusal :=
  match byteAddress a, byteOperand d with
  | .ok addr, .ok b => complete 0 (s.setBuf (writeByte s.buf addr b))
  | .error c, _ => takeFault c s
  | .ok _, .error c => takeFault c s

/-- `LDW n` (R55). -/
def execLdw (n : Index) (s : State) : Host.Outcome State Fault Refusal :=
  match wordAddress n with
  | .ok addr => complete (readWord s.buf addr) s
  | .error c => takeFault c s

/-- `STW n, d` (R56). -/
def execStw (n : Index) (d : Word) (s : State) : Host.Outcome State Fault Refusal :=
  match wordAddress n with
  | .ok addr => complete 0 (s.setBuf (writeWord s.buf addr d))
  | .error c => takeFault c s

end Sys2Proof.Machine
end

