-- ==== Sys2Proof/Machine/OrderSelector.lean ====
section
/-! DEFINITION. The order selector (spec/43_order_selector.md R71 to R76). -/

namespace Sys2Proof.Machine

/-- The 2-bit code of a type (R71). -/
def typeCode : SubType → BitVec 2
  | .growth => 0
  | .attack => 1
  | .effortValues => 2
  | .misc => 3

/-- The types at positions 0, 1, 2, 3 of an order, which its letters spell (R72). -/
def orderTypes : Order → SubType × SubType × SubType × SubType
  | .gaem => (.growth, .attack, .effortValues, .misc)
  | .game => (.growth, .attack, .misc, .effortValues)
  | .geam => (.growth, .effortValues, .attack, .misc)
  | .gema => (.growth, .effortValues, .misc, .attack)
  | .gmae => (.growth, .misc, .attack, .effortValues)
  | .gmea => (.growth, .misc, .effortValues, .attack)
  | .agem => (.attack, .growth, .effortValues, .misc)
  | .agme => (.attack, .growth, .misc, .effortValues)
  | .aegm => (.attack, .effortValues, .growth, .misc)
  | .aemg => (.attack, .effortValues, .misc, .growth)
  | .amge => (.attack, .misc, .growth, .effortValues)
  | .ameg => (.attack, .misc, .effortValues, .growth)
  | .egam => (.effortValues, .growth, .attack, .misc)
  | .egma => (.effortValues, .growth, .misc, .attack)
  | .eagm => (.effortValues, .attack, .growth, .misc)
  | .eamg => (.effortValues, .attack, .misc, .growth)
  | .emga => (.effortValues, .misc, .growth, .attack)
  | .emag => (.effortValues, .misc, .attack, .growth)
  | .mgae => (.misc, .growth, .attack, .effortValues)
  | .mgea => (.misc, .growth, .effortValues, .attack)
  | .mage => (.misc, .attack, .growth, .effortValues)
  | .maeg => (.misc, .attack, .effortValues, .growth)
  | .mega => (.misc, .effortValues, .growth, .attack)
  | .meag => (.misc, .effortValues, .attack, .growth)

/-- `OrdCode(t0, t1, t2, t3) = t0 + 4*t1 + 16*t2 + 64*t3`: position 0 in bits 1:0, position 3 in bits 7:6 (R72). -/
def ordCode (t : SubType × SubType × SubType × SubType) : BitVec 8 :=
  BitVec.ofNat 8 ((typeCode t.1).toNat + 4 * (typeCode t.2.1).toNat + 16 * (typeCode t.2.2.1).toNat +
    64 * (typeCode t.2.2.2).toNat)

/-- `PV mod 24` of the unsigned value (R74). -/
def orderIndex (pv : Word) : Fin 24 := ⟨pv.toNat % 24, Nat.mod_lt _ (by decide)⟩

/-- The table the spec offers where no other is given (R73), "from general knowledge, not in source". No meaning uses it;
a claim about it names it (log entry 6). -/
def defaultOrderTable (i : Fin 24) : Order :=
  [Order.gaem, .game, .geam, .gema, .gmae, .gmea, .agem, .agme, .aegm, .aemg, .amge, .ameg, .egam, .egma, .eagm, .eamg,
    .emga, .emag, .mgae, .mgea, .mage, .maeg, .mega, .meag].getD i.val .gaem

/-- The response data of `ORDER` for a table: bits 12:8 the index, bits 7:0 the code of the entry, the rest 0 (R75). -/
def orderData (table : Fin 24 → Order) (pv : Word) : Word :=
  (BitVec.ofNat 32 (orderIndex pv).val <<< 8) ||| (ordCode (orderTypes (table (orderIndex pv)))).setWidth 32

/-- `ORDER` (R75): no state is written, the result is latched nowhere. -/
def execOrder (s : State) : Host.Outcome State Fault Refusal := complete (orderData Config.orderTable s.pv) s

end Sys2Proof.Machine
end

