-- ==== Sys2Proof/Machine/Dispatch.lean ====
section
/-! DEFINITION. The meaning of each command: one arm per constructor of `Instr`. -/

namespace Sys2Proof.Machine

def exec (i : Instr) (s : State) : Host.Outcome State Fault Refusal :=
  match i with
  | .nop => Sys2Proof.Machine.execNop s
  | .rdr r => Sys2Proof.Machine.execRdr r s
  | .wrr r d => Sys2Proof.Machine.execWrr r d s
  | .ldb a => Sys2Proof.Machine.execLdb a s
  | .stb a d => Sys2Proof.Machine.execStb a d s
  | .ldw n => Sys2Proof.Machine.execLdw n s
  | .stw n d => Sys2Proof.Machine.execStw n d s
  | .unpack => Sys2Proof.Machine.execUnpack s
  | .pack => Sys2Proof.Machine.execPack s
  | .xform n => Sys2Proof.Machine.execXform n s
  | .order => Sys2Proof.Machine.execOrder s

end Sys2Proof.Machine
end

