-- ==== Sys2Proof/Machine/Step.lean ====
section
/-! DEFINITION. One step: the block takes the next thing the host does (spec/00_scope.md R4). -/

namespace Sys2Proof.Machine

/-- A command word the block takes: decoded and executed, or answered with `E_ILLEGAL` where it is no command
(30_encoding.md R45, R46). -/
def executeWord (cw : CommandWord) (s : State) : Host.Outcome State Fault Refusal :=
  match decode cw with
  | .ok i => exec i s
  | .error e => takeFault (rejectCause e) s

/-- The first event of the port is taken. With none left the block is idle with all state retained (60_exceptions.md R90).
A reset abandons the command that was not answered (70_reset_and_hazards.md R91). -/
def step (s : State) : Host.Outcome State Fault Refusal :=
  match s.port with
  | [] => .next s
  | .command cw :: rest => executeWord cw (s.withPort rest)
  | .reset :: rest => .next (resetBlock (s.withPort rest))
  | .issueThenReset _ :: rest => .next (resetBlock (s.withPort rest))

/-- `s` with the command word of bits `w` issued next: the block fetches from no memory (20_memory.md R36), so this is the
host's own act (log entry 1). -/
def State.withFetchWord (s : State) (nbits w : Nat) : State := s.issue (tableWord nbits w)

end Sys2Proof.Machine
end

