-- ==== Sys2Proof/Machine/Listing.lean ====
section
/-! DEFINITION. Command listings and pseudo-commands (spec/30_encoding.md R47, R48): what one line of a listing stands
for. This is notation of the host's; the machine never sees it. -/

namespace Sys2Proof.Machine

/-- The six pseudo-commands (R48). -/
inductive Pseudo where
  | setid (pv otid : Word)
  | setkey (k : Word)
  | enc (n : Word)
  | dec (n : Word)
  | wriv (w : Word)
  | clrf
deriving DecidableEq, Repr

/-- The fixed expansion of a pseudo-command (R48). -/
def expandPseudo : Pseudo → List Instr
  | .setid pv otid => [.wrr 0x00 pv, .wrr 0x01 otid]
  | .setkey k => [.wrr 0x00 k, .wrr 0x01 0]
  | .enc n => [.xform n]
  | .dec n => [.xform n]
  | .wriv w => [.wrr 0x03 w, .unpack]
  | .clrf => [.wrr 0x10 0, .wrr 0x11 0, .wrr 0x12 0, .wrr 0x13 0, .wrr 0x14 0, .wrr 0x15 0, .wrr 0x16 0, .wrr 0x17 0]

/-- What the host does to run a list of commands: it issues their words in order (R38, R39). -/
def issueAll (is : List Instr) : List HostEvent := is.map fun i => .command (encode i)

/-- The value of a digit character, 0 to 15. -/
def digitValue (c : Char) : Option Nat :=
  if '0'.toNat ≤ c.toNat ∧ c.toNat ≤ '9'.toNat then some (c.toNat - '0'.toNat)
  else if 'A'.toNat ≤ c.toNat ∧ c.toNat ≤ 'F'.toNat then some (c.toNat - 'A'.toNat + 10)
  else if 'a'.toNat ≤ c.toNat ∧ c.toNat ≤ 'f'.toNat then some (c.toNat - 'a'.toNat + 10)
  else none

/-- The digits of a number in a base, `_` a separator (00_scope.md section 7). Where a separator may stand after the first
digit, and how many, the spec leaves open: anywhere and any number, as it does small hexadecimal digits; DESIGN CHOICE (log
entry 17). -/
def digitsFrom (base acc : Nat) : List Char → Option Nat
  | [] => some acc
  | c :: cs =>
    if c = '_' then digitsFrom base acc cs
    else match digitValue c with
      | some v => if v < base then digitsFrom base (base * acc + v) cs else none
      | none => none

/-- The digits of a number that begins with a digit: no `_` stands first, and there is at least one digit. The spec leaves
both open; DESIGN CHOICE (log entry 17). -/
def numberFrom (base : Nat) : List Char → Option Nat
  | [] => none
  | c :: cs => if c = '_' then none else digitsFrom base 0 (c :: cs)

/-- A number: decimal, or hexadecimal with `0x` (R47). A prefix with no digit after it, and a `_` before the first digit, are
no number (DESIGN CHOICE, log entry 17). -/
def parseNumber : List Char → Option Nat
  | '0' :: 'x' :: cs => numberFrom 16 cs
  | cs => numberFrom 10 cs

/-- The register names of R47 and the aliases of the field registers. -/
def registerNames : List (String × Nat) :=
  [("PV", 0x00), ("OTID", 0x01), ("KEY", 0x02), ("IVW", 0x03), ("ERR", 0x04), ("F0", 0x10), ("F1", 0x11), ("F2", 0x12),
   ("F3", 0x13), ("F4", 0x14), ("F5", 0x15), ("F6", 0x16), ("F7", 0x17), ("HP", 0x10), ("ATK", 0x11), ("DEF", 0x12),
   ("SPE", 0x13), ("SPA", 0x14), ("SPD", 0x15), ("EGG", 0x16), ("ABIL", 0x17)]

/-- A register operand: a name, or its index as a number (R47). -/
def parseRegister (cs : List Char) : Option Nat :=
  match registerNames.find? (fun e => e.1.toList = cs) with
  | some e => some e.2
  | none => parseNumber cs

/-- A number that an operand of `w` bits can hold. -/
def fitBits (w : Nat) (v : Nat) : Option (BitVec w) := if v < 2 ^ w then some (BitVec.ofNat w v) else none

def indexOperand (cs : List Char) : Option Index := (parseNumber cs).bind (fitBits 8)
def registerOperand (cs : List Char) : Option Index := (parseRegister cs).bind (fitBits 8)
def dataOperand (cs : List Char) : Option Word := (parseNumber cs).bind (fitBits 32)

/-- The characters of a line before its comment (R47). -/
def withoutComment (line : List Char) : List Char := line.takeWhile (· ≠ ';')

def isBlank (c : Char) : Bool := c = ' ' || c = '\t'

/-- Without blanks at either end. -/
def trimBlanks (cs : List Char) : List Char := ((cs.dropWhile isBlank).reverse.dropWhile isBlank).reverse

/-- The operands of a line, separated by commas (R47). -/
def splitCommas (cs : List Char) : List (List Char) :=
  cs.foldr (fun c parts =>
    if c = ',' then [] :: parts
    else match parts with
      | [] => [[c]]
      | p :: ps => (c :: p) :: ps) [[]]

/-- What a mnemonic with its operands stands for: the commands of R41, the pseudo-commands of R48. -/
def assembleParts (mnemonic : List Char) (operands : List (List Char)) : Option (List Instr) :=
  if mnemonic = "NOP".toList then (if operands = [] then some [.nop] else none)
  else if mnemonic = "UNPACK".toList then (if operands = [] then some [.unpack] else none)
  else if mnemonic = "PACK".toList then (if operands = [] then some [.pack] else none)
  else if mnemonic = "ORDER".toList then (if operands = [] then some [.order] else none)
  else if mnemonic = "CLRF".toList then (if operands = [] then some (expandPseudo .clrf) else none)
  else match operands with
    | [x] =>
      if mnemonic = "RDR".toList then (registerOperand x).map fun r => [.rdr r]
      else if mnemonic = "LDB".toList then (indexOperand x).map fun a => [.ldb a]
      else if mnemonic = "LDW".toList then (indexOperand x).map fun n => [.ldw n]
      else if mnemonic = "XFORM".toList then (dataOperand x).map fun n => [.xform n]
      else if mnemonic = "SETKEY".toList then (dataOperand x).map fun k => expandPseudo (.setkey k)
      else if mnemonic = "ENC".toList then (dataOperand x).map fun n => expandPseudo (.enc n)
      else if mnemonic = "DEC".toList then (dataOperand x).map fun n => expandPseudo (.dec n)
      else if mnemonic = "WRIV".toList then (dataOperand x).map fun w => expandPseudo (.wriv w)
      else none
    | [x, y] =>
      if mnemonic = "WRR".toList then
        (registerOperand x).bind fun r => (dataOperand y).map fun d => [.wrr r d]
      else if mnemonic = "STB".toList then
        (indexOperand x).bind fun a => (dataOperand y).map fun d => [.stb a d]
      else if mnemonic = "STW".toList then
        (indexOperand x).bind fun n => (dataOperand y).map fun d => [.stw n d]
      else if mnemonic = "SETID".toList then
        (dataOperand x).bind fun pv => (dataOperand y).map fun otid => expandPseudo (.setid pv otid)
      else none
    | _ => none

/-- One line of a listing (R47): the commands it stands for, none of them for a blank line; `none` where the line is not
of the form. -/
def assembleLine (line : List Char) : Option (List Instr) :=
  let text := trimBlanks (withoutComment line)
  let mnemonic := text.takeWhile (fun c => !isBlank c)
  let rest := trimBlanks (text.dropWhile (fun c => !isBlank c))
  if text = [] then some []
  else if rest = [] then assembleParts mnemonic []
  else assembleParts mnemonic ((splitCommas rest).map trimBlanks)

end Sys2Proof.Machine
end

