-- ==== Sys2Proof/Safety.lean ====
section
/-! DEFINITION. What counts as a good state of the block and as a run of it, in the terms the statements use. -/

namespace Sys2Proof.Machine

/-- The cause code of the oldest response that reports a fault, 0 if there is none (10_state.md R15: "the cause code of
the first fault since reset, or 0"). The list has the newest response first. -/
def firstFault : List Response → BitVec 4
  | [] => 0
  | r :: older => if firstFault older = 0 then r.err else firstFault older

/-- What the response port can show (30_encoding.md R40): an error field of 0 to 3, and no data beside a fault. -/
abbrev Response.legal (r : Response) : Prop := r.err.toNat ≤ 3 ∧ (r.err ≠ 0 → r.data = 0)

/-- The invariant of the block: the buffer is canonical; every response since reset is legal; `ERR` holds the first fault
since reset (10_state.md R15, 60_exceptions.md R85). -/
abbrev State.Inv (s : State) : Prop :=
  Buffer.wf s.buf ∧ (∀ r ∈ s.responses, Response.legal r) ∧ s.err = firstFault s.responses

/-- `s` after a command that completed with response data `v` and changed nothing: `rsp <- (0, v)` (30_encoding.md R40). -/
abbrev answered (s : State) (v : Word) : State := { s with responses := ⟨0, v⟩ :: s.responses }

/-- `s` after a command that faulted with the code `code`, written from 60_exceptions.md R83 apart from `raiseFault`: no
register, field register or byte changes, `ERR` takes the code if it was 0, the response is `(code, 0)`. -/
abbrev faulted (s : State) (code : BitVec 4) : State :=
  { s with err := if s.err = 0 then code else s.err, responses := ⟨code, 0⟩ :: s.responses }

/-- The checks of 30_encoding.md R46 in their order, on the three numbers of a command word, written from that rule and
R41 to R45 apart from the decoder and the meanings: the code of the first check that fails, 0 if none does. -/
def checkOrder (op idx data : Nat) : BitVec 4 :=
  if op ∉ [0x00, 0x01, 0x02, 0x03, 0x04, 0x05, 0x06, 0x10, 0x11, 0x20, 0x30] then 2
  else if (op ∈ [0x00, 0x10, 0x11, 0x20, 0x30] ∧ idx ≠ 0) ∨
      (op ∈ [0x00, 0x01, 0x03, 0x05, 0x10, 0x11, 0x30] ∧ data ≠ 0) then 2
  else if (op ∈ [0x01, 0x02] ∧ ¬(idx ≤ 0x04 ∨ (0x10 ≤ idx ∧ idx ≤ 0x17))) ∨
      (op = 0x02 ∧ (idx = 0x02 ∨ idx = 0x04)) then 2
  else if op = 0x20 ∧ data % 4 ≠ 0 then 1
  else if (op ∈ [0x03, 0x04] ∧ 48 ≤ idx) ∨ (op ∈ [0x05, 0x06] ∧ 12 ≤ idx) ∨ (op = 0x20 ∧ 48 < data) ∨
      (op = 0x04 ∧ 0xFF < data) ∨ (op = 0x02 ∧ 0x10 ≤ idx ∧ idx ≤ 0x15 ∧ 31 < data) ∨
      (op = 0x02 ∧ 0x16 ≤ idx ∧ idx ≤ 0x17 ∧ 1 < data) then 3
  else 0

/-- The six architectural fields of R10 are the same in both states; ports aside. -/
abbrev sameBlock (s t : State) : Prop :=
  s.pv = t.pv ∧ s.otid = t.otid ∧ s.ivw = t.ivw ∧ s.err = t.err ∧ s.f = t.f ∧ s.buf = t.buf

/-- A run from `s` in which the host issues the command words of `is` in order (70_reset_and_hazards.md R104), one step
for each. -/
def runListing (is : List Instr) (s : State) : Host.Outcome State Fault Refusal :=
  Sys2Proof.core.run is.length (s.withPort (issueAll is))

/-- A run in which the host issues the command words of `ws` in order, whether they are commands or not. -/
def runWords (ws : List CommandWord) (s : State) : Host.Outcome State Fault Refusal :=
  Sys2Proof.core.run ws.length (s.withPort (ws.map .command))

/-- A run of at most `k` commands whose host chooses each word from the responses it has (30_encoding.md R49: "a function
from the responses received so far to the next command word"); it ends when the host issues no more. -/
def runHost (host : List Response → Option CommandWord) : Nat → State → Host.Outcome State Fault Refusal
  | 0, s => .next s
  | k + 1, s =>
    match host s.responses with
    | none => .next s
    | some cw =>
      match step (s.issue cw) with
      | .next t => runHost host k t
      | .fault r => .fault r
      | .refused r => .refused r

/-- No command has faulted since reset, which a host sees as `ERR` = 0 (60_exceptions.md R85, 70_reset_and_hazards.md
R101). -/
abbrev State.faultFree (s : State) : Prop := ∀ r ∈ s.responses, r.err = 0

end Sys2Proof.Machine
end

