-- ==== Sys2Proof/WellFormed.lean ====
section
/-! DEFINITION. When the operands of a command are legal: none of the checks 3, 4 and 5 of spec/30_encoding.md R46 fails.
Written from the tables of 10_state.md R18 and 60_exceptions.md R80, apart from the machine. Every `Instr` can be encoded;
one that is not well formed is a command that the block answers with a fault. -/

namespace Sys2Proof

/-- Register indices that `RDR` may name (10_state.md R18). -/
def Index.readable (r : Index) : Bool :=
  decide (r.toNat ≤ 0x04) || (decide (0x10 ≤ r.toNat) && decide (r.toNat ≤ 0x17))

/-- Register indices that `WRR` may name: not `KEY` (0x02), not `ERR` (0x04) (10_state.md R18). -/
def Index.writable (r : Index) : Bool :=
  Index.readable r && decide (r.toNat ≠ 0x02) && decide (r.toNat ≠ 0x04)

/-- The value fits the register: 31 at most for `F[0..5]`, 1 at most for `F[6..7]`, anything for a 32-bit register
(30_encoding.md R43). -/
def Index.fits (r : Index) (d : Word) : Bool :=
  if 0x10 ≤ r.toNat ∧ r.toNat ≤ 0x15 then decide (d.toNat ≤ 31)
  else if 0x16 ≤ r.toNat ∧ r.toNat ≤ 0x17 then decide (d.toNat ≤ 1)
  else true

/-- The command's operands pass every check of 30_encoding.md R46 (rows of 60_exceptions.md R80). -/
def Instr.wellFormed : Instr → Bool
  | .nop => true
  | .rdr r => Index.readable r
  | .wrr r d => Index.writable r && Index.fits r d
  | .ldb a => decide (a.toNat < Config.bufBytes)
  | .stb a d => decide (a.toNat < Config.bufBytes) && decide (d.toNat ≤ 0xFF)
  | .ldw n => decide (n.toNat < Config.bufBytes / 4)
  | .stw n _ => decide (n.toNat < Config.bufBytes / 4)
  | .unpack => true
  | .pack => true
  | .xform n => decide (n.toNat % 4 = 0) && decide (n.toNat ≤ Config.bufBytes)
  | .order => true

end Sys2Proof
end

