-- ==== Sys2Proof/Certificates/Slice0/Obligations.lean ====
section
/-! DEFINITION. The statements for the provers. Each formalises the rules of spec/ that its docstring names. -/

open Sys2Proof Sys2Proof.Machine

/-! ### Reset -/

/-- 10_state.md R23: after reset every piece of state is zero, `KEY` reads 0 and `ORDER` returns the entry of index 0. -/
def Obligations.ResetStateIsAllZero : Prop :=
  State.reset.pv = 0 ∧ State.reset.otid = 0 ∧ State.reset.ivw = 0 ∧ State.reset.err = 0 ∧
    (∀ i, getField State.reset.f i = 0) ∧ (∀ a, readByte State.reset.buf a = 0) ∧
    exec (.rdr 0x02) State.reset = .next (answered State.reset 0) ∧
    exec .order State.reset =
      .next (answered State.reset ((ordCode (orderTypes (Config.orderTable 0))).setWidth 32))

/-- 70_reset_and_hazards.md R91: reset maps every state to the one reset state, and a command that was not answered is
abandoned. What the host does next stays; that reset and an abandoned command are events of the port is the model's choice
(log entries 1 and 8). -/
def Obligations.ResetEventGivesTheResetState : Prop :=
  ∀ (s : State) (rest : List HostEvent),
    (s.port = .reset :: rest → step s = .next { State.reset with port := rest }) ∧
    (∀ cw, s.port = .issueThenReset cw :: rest → step s = .next { State.reset with port := rest })

/-! ### The host access commands -/

/-- 40_host_access.md R50. -/
def Obligations.NopAnswersZeroAndChangesNothing : Prop :=
  encode .nop = 0x000000000000#48 ∧
  ∀ s : State,
    exec .nop s = .next (answered s 0) ∧
    ∀ (idx : Index) (data : Word), idx ≠ 0 ∨ data ≠ 0 →
      executeWord (commandWord 0x00 idx data) s = .next (faulted s 2)

/-- 40_host_access.md R51: each index of the register map reads its register or view, zero-extended; any other index and a
reserved field that is not zero are `E_ILLEGAL`. -/
def Obligations.RdrAnswersTheNamedRegister : Prop :=
  ∀ (s : State) (r : Index),
    (∀ p ∈ [((0x00 : Index), s.pv), (0x01, s.otid), (0x02, s.otid ^^^ s.pv), (0x03, s.ivw), (0x04, s.err.setWidth 32),
        (0x10, s.f.f0.setWidth 32), (0x11, s.f.f1.setWidth 32), (0x12, s.f.f2.setWidth 32),
        (0x13, s.f.f3.setWidth 32), (0x14, s.f.f4.setWidth 32), (0x15, s.f.f5.setWidth 32),
        (0x16, s.f.f6.setWidth 32), (0x17, s.f.f7.setWidth 32)],
      exec (.rdr p.1) s = .next (answered s p.2)) ∧
    (¬(r.toNat ≤ 0x04 ∨ (0x10 ≤ r.toNat ∧ r.toNat ≤ 0x17)) → exec (.rdr r) s = .next (faulted s 2)) ∧
    encode (.rdr r) = commandWord 0x01 r 0 ∧
    ∀ data : Word, data ≠ 0 → executeWord (commandWord 0x01 r data) s = .next (faulted s 2)

/-- 40_host_access.md R52: exactly the named register takes the value; a field register refuses a value too wide for it
and nothing changes; a read-only index or one that names no register is `E_ILLEGAL`. -/
def Obligations.WrrWritesExactlyTheNamedRegister : Prop :=
  ∀ (s : State) (r : Index) (d : Word),
    exec (.wrr 0x00 d) s = .next (answered { s with pv := d } 0) ∧
    exec (.wrr 0x01 d) s = .next (answered { s with otid := d } 0) ∧
    exec (.wrr 0x03 d) s = .next (answered { s with ivw := d } 0) ∧
    (∀ p ∈ [((0x10 : Index), 31, { s.f with f0 := d.setWidth 5 }), (0x11, 31, { s.f with f1 := d.setWidth 5 }),
        (0x12, 31, { s.f with f2 := d.setWidth 5 }), (0x13, 31, { s.f with f3 := d.setWidth 5 }),
        (0x14, 31, { s.f with f4 := d.setWidth 5 }), (0x15, 31, { s.f with f5 := d.setWidth 5 }),
        (0x16, 1, { s.f with f6 := d.setWidth 1 }), (0x17, 1, { s.f with f7 := d.setWidth 1 })],
      if d.toNat ≤ p.2.1 then exec (.wrr p.1 d) s = .next (answered { s with f := p.2.2 } 0)
      else exec (.wrr p.1 d) s = .next (faulted s 3)) ∧
    (r.toNat ∉ [0x00, 0x01, 0x03, 0x10, 0x11, 0x12, 0x13, 0x14, 0x15, 0x16, 0x17] →
      exec (.wrr r d) s = .next (faulted s 2)) ∧
    encode (.wrr r d) = commandWord 0x02 r d

/-- 40_host_access.md R53: any byte below `BUF_BYTES`, zero-extended; a byte never written since reset answers 0. -/
def Obligations.LdbAnswersTheByteZeroExtended : Prop :=
  ∀ (s : State) (a : Index),
    (if a.toNat < 48 then exec (.ldb a) s = .next (answered s (BitVec.ofNat 32 (readByte s.buf a.toNat).toNat))
      else exec (.ldb a) s = .next (faulted s 3)) ∧
    (a.toNat < 48 → exec (.ldb a) State.reset = .next (answered State.reset 0)) ∧
    encode (.ldb a) = commandWord 0x03 a 0 ∧
    ∀ data : Word, data ≠ 0 → executeWord (commandWord 0x03 a data) s = .next (faulted s 2)

/-- 40_host_access.md R54: only the byte at `a` changes, and no register. -/
def Obligations.StbStoresOneByte : Prop :=
  ∀ (s : State) (a : Index) (d : Word), Buffer.wf s.buf →
    (if a.toNat < 48 ∧ d.toNat ≤ 0xFF then
      ∃ m, exec (.stb a d) s = .next (answered { s with buf := m } 0) ∧ Buffer.wf m ∧
        ∀ b, (readByte m b).toNat = if b = a.toNat then d.toNat else (readByte s.buf b).toNat
      else exec (.stb a d) s = .next (faulted s 3)) ∧
    encode (.stb a d) = commandWord 0x04 a d

/-- 40_host_access.md R55: the word at byte address `4n`, `BUF[4n]` the least significant byte. -/
def Obligations.LdwAnswersTheLittleEndianWord : Prop :=
  ∀ (s : State) (n : Index),
    (if n.toNat < 12 then
      ∃ v : Word, exec (.ldw n) s = .next (answered s v) ∧
        v.toNat = (readByte s.buf (4 * n.toNat)).toNat + 2 ^ 8 * (readByte s.buf (4 * n.toNat + 1)).toNat +
          2 ^ 16 * (readByte s.buf (4 * n.toNat + 2)).toNat + 2 ^ 24 * (readByte s.buf (4 * n.toNat + 3)).toNat
      else exec (.ldw n) s = .next (faulted s 3)) ∧
    encode (.ldw n) = commandWord 0x05 n 0 ∧
    ∀ data : Word, data ≠ 0 → executeWord (commandWord 0x05 n data) s = .next (faulted s 2)

/-- 40_host_access.md R56: exactly the four bytes from `4n` change, little-endian, and no register; `LDW n` then answers
`d`. -/
def Obligations.StwStoresFourBytes : Prop :=
  ∀ (s : State) (n : Index) (d : Word), Buffer.wf s.buf →
    (if n.toNat < 12 then
      ∃ m, exec (.stw n d) s = .next (answered { s with buf := m } 0) ∧ Buffer.wf m ∧
        (∀ b, readByte m b =
          if b = 4 * n.toNat then d.extractLsb' 0 8
          else if b = 4 * n.toNat + 1 then d.extractLsb' 8 8
          else if b = 4 * n.toNat + 2 then d.extractLsb' 16 8
          else if b = 4 * n.toNat + 3 then d.extractLsb' 24 8
          else readByte s.buf b) ∧
        exec (.ldw n) (answered { s with buf := m } 0) = .next (answered (answered { s with buf := m } 0) d)
      else exec (.stw n d) s = .next (faulted s 3)) ∧
    encode (.stw n d) = commandWord 0x06 n d

/-- 20_memory.md R28: the byte view of a stored word and the word view of four stored bytes are one picture. -/
def Obligations.FourByteStoresMakeTheWord : Prop :=
  ∀ (s : State) (n : Index) (d : Word), Buffer.wf s.buf → n.toNat < 12 →
    ∃ t, runListing [.stb (4 * n) (d &&& 0xFF), .stb (4 * n + 1) (d >>> 8 &&& 0xFF), .stb (4 * n + 2) (d >>> 16 &&& 0xFF),
        .stb (4 * n + 3) (d >>> 24), .ldw n] s = .next t ∧
      t.responses = ⟨0, d⟩ :: ⟨0, 0⟩ :: ⟨0, 0⟩ :: ⟨0, 0⟩ :: ⟨0, 0⟩ :: s.responses

/-- 20_memory.md R28, R31: a byte load after a word store answers that byte of the word. -/
def Obligations.LdbAfterStwAnswersTheByteOfTheWord : Prop :=
  ∀ (s : State) (n : Index) (d : Word) (j : Fin 4), Buffer.wf s.buf → n.toNat < 12 →
    ∃ t, exec (.stw n d) s = .next t ∧
      exec (.ldb (4 * n + BitVec.ofNat 8 j.val)) t =
        .next (answered t (BitVec.ofNat 32 (d.toNat / 2 ^ (8 * j.val) % 2 ^ 8)))

/-! ### The bit-field packer and unpacker -/

/-- 41_bitcontainer.md R61 with R59: every field register takes its bits of `IVW`, and nothing else changes. -/
def Obligations.UnpackDecodesIvw : Prop :=
  encode .unpack = 0x100000000000#48 ∧
  ∀ s : State,
    (∃ g : Fields, exec .unpack s = .next (answered { s with f := g } 0) ∧
      g.f0.toNat = s.ivw.toNat % 32 ∧ g.f1.toNat = s.ivw.toNat / 2 ^ 5 % 32 ∧ g.f2.toNat = s.ivw.toNat / 2 ^ 10 % 32 ∧
      g.f3.toNat = s.ivw.toNat / 2 ^ 15 % 32 ∧ g.f4.toNat = s.ivw.toNat / 2 ^ 20 % 32 ∧
      g.f5.toNat = s.ivw.toNat / 2 ^ 25 % 32 ∧ g.f6.toNat = s.ivw.toNat / 2 ^ 30 % 2 ∧
      g.f7.toNat = s.ivw.toNat / 2 ^ 31) ∧
    ∀ (idx : Index) (data : Word), idx ≠ 0 ∨ data ≠ 0 →
      executeWord (commandWord 0x10 idx data) s = .next (faulted s 2)

/-- 41_bitcontainer.md R62 with R60: `IVW` takes the sum of the fields in their places, and nothing else changes. -/
def Obligations.PackEncodesTheFields : Prop :=
  encode .pack = 0x110000000000#48 ∧
  ∀ s : State,
    (∃ w : Word, exec .pack s = .next (answered { s with ivw := w } 0) ∧
      w.toNat = s.f.f0.toNat + 2 ^ 5 * s.f.f1.toNat + 2 ^ 10 * s.f.f2.toNat + 2 ^ 15 * s.f.f3.toNat +
        2 ^ 20 * s.f.f4.toNat + 2 ^ 25 * s.f.f5.toNat + 2 ^ 30 * s.f.f6.toNat + 2 ^ 31 * s.f.f7.toNat) ∧
    ∀ (idx : Index) (data : Word), idx ≠ 0 ∨ data ≠ 0 →
      executeWord (commandWord 0x11 idx data) s = .next (faulted s 2)

/-- 41_bitcontainer.md R63: the two functions are exact inverses, `UNPACK` then `PACK` leaves `IVW` as it was, `PACK` then
`UNPACK` leaves the fields, and changing one field and packing changes only its bits. -/
def Obligations.BitContainerRoundTrip : Prop :=
  (∀ w, bitEncode (bitDecode w) = w) ∧ (∀ f, bitDecode (bitEncode f) = f) ∧
  (∀ s : State, ∃ t u, exec .unpack s = .next t ∧ exec .pack t = .next u ∧ u.ivw = s.ivw) ∧
  (∀ s : State, ∃ t u, exec .pack s = .next t ∧ exec .unpack t = .next u ∧ u.f = s.f) ∧
  ∀ (f : Fields) (i : Fin 8) (d : Word) (b : Nat),
    ¬(fieldOffset i ≤ b ∧ b < fieldOffset i + fieldWidth i) →
      (bitEncode (setField f i d)).getLsbD b = (bitEncode f).getLsbD b

/-! ### The XOR engine -/

/-- 42_cipher.md R67: the first `n` bytes, word by word, are XORed with `OTID XOR PV`; no other byte and no register
changes; the three faults in the order checked change no byte. -/
def Obligations.XformXorsTheFirstBytes : Prop :=
  ∀ (s : State) (n : Word), Buffer.wf s.buf →
    (if n.toNat % 4 ≠ 0 then exec (.xform n) s = .next (faulted s 1)
      else if 48 < n.toNat then exec (.xform n) s = .next (faulted s 3)
      else ∃ m, exec (.xform n) s = .next (answered { s with buf := m } 0) ∧ Buffer.wf m ∧
        (∀ i, i < n.toNat / 4 → readWord m (4 * i) = readWord s.buf (4 * i) ^^^ (s.otid ^^^ s.pv)) ∧
        ∀ a, n.toNat ≤ a → readByte m a = readByte s.buf a) ∧
    encode (.xform n) = commandWord 0x20 0 n ∧
    ∀ idx : Index, idx ≠ 0 → executeWord (commandWord 0x20 idx n) s = .next (faulted s 2)

/-- 42_cipher.md R66: byte `a` of the data is XORed with byte `a mod 4` of the key, key byte 0 the least significant. -/
def Obligations.XformXorsEachByteWithItsKeyByte : Prop :=
  ∀ (s : State) (n : Word), Buffer.wf s.buf → n.toNat % 4 = 0 → n.toNat ≤ 48 →
    ∃ t, exec (.xform n) s = .next t ∧
      ∀ a, a < n.toNat →
        (readByte t.buf a).toNat =
          (readByte s.buf a).toNat ^^^ ((s.otid ^^^ s.pv).toNat / 2 ^ (8 * (a % 4)) % 2 ^ 8)

/-- 42_cipher.md R68: two transforms of the same length, with any writes of `PV` and `OTID` between them, leave the buffer
as one transform under the XOR of the two keys does; under one key they leave it as it was. -/
def Obligations.XformIsAnInvolution : Prop :=
  ∀ (s : State) (n pv otid : Word), Buffer.wf s.buf → n.toNat % 4 = 0 → n.toNat ≤ 48 →
    ∃ t u v, exec (.xform n) s = .next t ∧ exec (.xform n) { t with pv := pv, otid := otid } = .next u ∧
      exec (.xform n) { s with pv := (s.otid ^^^ s.pv) ^^^ (otid ^^^ pv), otid := 0 } = .next v ∧
      u.buf = v.buf ∧ (otid ^^^ pv = s.otid ^^^ s.pv → u.buf = s.buf)

/-- 42_cipher.md R69: a result word depends only on that word and the key. -/
def Obligations.XformLanesAreIndependent : Prop :=
  ∀ (s t s' t' : State) (n : Word) (i : Nat), Buffer.wf s.buf → Buffer.wf t.buf → 4 * i < n.toNat →
    s.otid ^^^ s.pv = t.otid ^^^ t.pv → readWord s.buf (4 * i) = readWord t.buf (4 * i) →
    exec (.xform n) s = .next s' → exec (.xform n) t = .next t' →
    readWord s'.buf (4 * i) = readWord t'.buf (4 * i)

/-- 10_state.md R13: `KEY` always reads `OTID XOR PV`, a write of it is refused, and any key can be had by `SETKEY`. -/
def Obligations.KeyIsAlwaysRecomputed : Prop :=
  ∀ (s : State) (k d : Word),
    exec (.rdr 0x02) s = .next (answered s (s.otid ^^^ s.pv)) ∧
    exec (.wrr 0x02 d) s = .next (faulted s 2) ∧
    ∃ t, runListing (expandPseudo (.setkey k) ++ [.rdr 0x02]) s = .next t ∧
      t.responses = ⟨0, k⟩ :: ⟨0, 0⟩ :: ⟨0, 0⟩ :: s.responses

/-! ### The order selector -/

/-- 43_order_selector.md R75: bits 12:8 are `PV mod 24`, bits 7:0 the code of that entry of `ORDER_TABLE`, the rest 0, and
no state is written. It holds of the open parameter, so of every table of permutations. -/
def Obligations.OrderAnswersIndexAndCode : Prop :=
  encode .order = 0x300000000000#48 ∧
  ∀ s : State,
    (∃ (v : Word) (i : Fin 24), exec .order s = .next (answered s v) ∧ i.val = s.pv.toNat % 24 ∧
      v.toNat = 256 * i.val + ((typeCode (orderTypes (Config.orderTable i)).1).toNat +
        4 * (typeCode (orderTypes (Config.orderTable i)).2.1).toNat +
        16 * (typeCode (orderTypes (Config.orderTable i)).2.2.1).toNat +
        64 * (typeCode (orderTypes (Config.orderTable i)).2.2.2).toNat)) ∧
    ∀ (idx : Index) (data : Word), idx ≠ 0 ∨ data ≠ 0 →
      executeWord (commandWord 0x30 idx data) s = .next (faulted s 2)

/-- 43_order_selector.md R76: the four fields of every response are pairwise different, the index is below 24, and values
of `PV` that agree modulo 24 give the same response. -/
def Obligations.OrderResponseIsAPermutation : Prop :=
  ∀ s : State, ∃ v : Word, exec .order s = .next (answered s v) ∧
    [v.extractLsb' 0 2, v.extractLsb' 2 2, v.extractLsb' 4 2, v.extractLsb' 6 2].Nodup ∧
    (v.extractLsb' 8 5).toNat < 24 ∧
    ∀ t : State, t.pv.toNat % 24 = s.pv.toNat % 24 → exec .order t = .next (answered t v)

/-- 43_order_selector.md R72: an 8-bit value is the code of an `Order` exactly when its four 2-bit fields are pairwise
different. So `Order` holds the permutations, all of them and nothing else. -/
def Obligations.OrderCodesAreThePermutations : Prop :=
  ∀ c : BitVec 8,
    (∃ o, ordCode (orderTypes o) = c) ↔
      [c.extractLsb' 0 2, c.extractLsb' 2 2, c.extractLsb' 4 2, c.extractLsb' 6 2].Nodup

/-- 43_order_selector.md R73: the codes of the default table. The table is the spec's general-knowledge value, not the
parameter (log entry 6). -/
def Obligations.DefaultTableHasTheListedCodes : Prop :=
  (List.finRange 24).map (fun i => ordCode (orderTypes (defaultOrderTable i))) =
      [0xE4, 0xB4, 0xD8, 0x78, 0x9C, 0x6C, 0xE1, 0xB1, 0xC9, 0x39, 0x8D, 0x2D, 0xD2, 0x72, 0xC6, 0x36, 0x4E, 0x1E, 0x93,
        0x63, 0x87, 0x27, 0x4B, 0x1B] ∧
    ∀ i j, defaultOrderTable i = defaultOrderTable j → i = j

/-! ### Encoding -/

/-- 30_encoding.md R39: a command word is `op * 2^40 + idx * 2^32 + data`, and its fields are the bits 47:40, 39:32 and 31:0
of the word. -/
def Obligations.CommandWordHasOneFormat : Prop :=
  (∀ (op : BitVec 8) (idx : Index) (data : Word),
    (commandWord op idx data).toNat = op.toNat * 2 ^ 40 + idx.toNat * 2 ^ 32 + data.toNat) ∧
  ∀ cw : CommandWord,
    (opField cw).toNat = cw.toNat / 2 ^ 40 ∧ (idxField cw).toNat = cw.toNat / 2 ^ 32 % 2 ^ 8 ∧
      (dataField cw).toNat = cw.toNat % 2 ^ 32 ∧ commandWord (opField cw) (idxField cw) (dataField cw) = cw

/-- Every command decodes from its own command word, with every operand at every value (30_encoding.md R39, R41). -/
def Obligations.DecodeOfEncodeIsTheCommand : Prop := ∀ i : Instr, decode (encode i) = .ok i

/-- Every word the decoder accepts is the command word of what it reads: no bit is dropped (R44). -/
def Obligations.EncodeOfDecodeIsTheWord : Prop :=
  ∀ (cw : CommandWord) (i : Instr), decode cw = .ok i → encode i = cw

/-- The decoder accepts exactly the words that match a row of spec/opcode_table.json (R41, R44, R45). -/
def Obligations.DecoderAcceptsExactlyTheTable : Prop :=
  ∀ cw : CommandWord, (∃ i, decode cw = .ok i) ↔ ∃ row ∈ opcodeRows, cw &&& row.mask = row.pattern

/-- The example words of 30_encoding.md R47. -/
def Obligations.ExampleWordsDecode : Prop :=
  decode 0x020000000064#48 = .ok (.wrr 0x00 100) ∧ decode 0x050B00000000#48 = .ok (.ldw 11) ∧
    decode 0x200000000030#48 = .ok (.xform 48) ∧ decode 0x02140000001F#48 = .ok (.wrr 0x14 31) ∧
    decode 0x010500000000#48 = .ok (.rdr 0x05) ∧ decode 0x070000000000#48 = .error .unknownOpcode

/-! ### Faults -/

/-- 30_encoding.md R46, 60_exceptions.md R80 and R81: every one of the words is answered, with the code of the first check
that fails; a word that fails one has the fault entry as its only effect; one that fails none is a well-formed command and
executes. -/
def Obligations.FirstFailingCheckGivesTheCode : Prop :=
  ∀ (cw : CommandWord) (s : State), ∃ t r,
    executeWord cw s = .next t ∧ t.responses = r :: s.responses ∧
    r.err = checkOrder (opField cw).toNat (idxField cw).toNat (dataField cw).toNat ∧
    (r.err ≠ 0 → t = faulted s r.err) ∧
    (r.err = 0 → t.err = s.err ∧ ∃ i, decode cw = .ok i ∧ i.wellFormed = true ∧ exec i s = .next t)

/-- 30_encoding.md R44 and R45: a word that matches no row of the table faults with `E_ILLEGAL` and does nothing else. -/
def Obligations.NonCommandWordsFaultIllegal : Prop :=
  ∀ (s : State) (cw : CommandWord) (rest : List HostEvent), s.port = .command cw :: rest →
    (∀ row ∈ opcodeRows, cw &&& row.mask ≠ row.pattern) →
    step s = .next (faulted { s with port := rest } 2)

/-- 60_exceptions.md R83: a command word either completes, with `ERR` unchanged and the error field 0, or takes one of the
three faults with the fault entry as its only effect: no register, field register or byte changes. -/
def Obligations.CommandsCompleteOrFaultPrecisely : Prop :=
  ∀ (cw : CommandWord) (s : State),
    (∃ t v, executeWord cw s = .next t ∧ t.err = s.err ∧ t.port = s.port ∧ t.responses = ⟨0, v⟩ :: s.responses) ∨
    ∃ c ∈ [(1 : BitVec 4), 2, 3],
      executeWord cw s =
        .next { s with err := if s.err = 0 then c else s.err, responses := ⟨c, 0⟩ :: s.responses }

/-- 60_exceptions.md R80: a command completes exactly when its operands are legal. -/
def Obligations.CompletesIffWellFormed : Prop :=
  ∀ (i : Instr) (s : State), ∃ t r, exec i s = .next t ∧ t.responses = r :: s.responses ∧
    (r.err = 0 ↔ i.wellFormed = true)

/-- 60_exceptions.md R85: once not 0, `ERR` keeps its value through every command, whatever the word, and only reset
clears it. -/
def Obligations.ErrIsSticky : Prop :=
  ∀ (s t : State), s.err ≠ 0 → step s = .next t →
    t.err = s.err ∨ (t.err = 0 ∧ ∃ rest, s.port = .reset :: rest ∨ ∃ cw, s.port = .issueThenReset cw :: rest)

/-- 60_exceptions.md R84: what `ERR` holds changes no command's response and no other effect. -/
def Obligations.ErrMasksNothing : Prop :=
  ∀ (i : Instr) (s : State) (e : BitVec 4), i ≠ .rdr 0x04 →
    ∃ t u, exec i s = .next t ∧ exec i { s with err := e } = .next u ∧ { u with err := t.err } = t

/-- 70_reset_and_hazards.md R101 with the invariant as its premise: `ERR` reads 0 exactly if no command since reset
faulted. The list of responses is the model's (log entry 2). -/
def Obligations.ErrZeroIffNoFaultSinceReset : Prop :=
  ∀ s : State, State.Inv s → (s.err = 0 ↔ State.faultFree s)

/-- 10_state.md R15: `ERR` holds 0, 1, 2 or 3 in every state that meets the invariant, and `RDR ERR` answers it. -/
def Obligations.ErrHoldsOnlyTheFourCodes : Prop :=
  ∀ s : State, State.Inv s → s.err.toNat ≤ 3 ∧
    exec (.rdr 0x04) s = .next (answered s (BitVec.ofNat 32 s.err.toNat))

/-! ### The machine -/

/-- When the word at the port decodes, a step is the command's meaning, at the state with that word taken
(00_scope.md R4). -/
def Obligations.StepRunsTheDecodedCommand : Prop :=
  ∀ (s : State) (cw : CommandWord) (rest : List HostEvent) (i : Instr),
    s.port = .command cw :: rest → decode cw = .ok i → step s = exec i { s with port := rest }

/-- With nothing at the port the block is idle and all state is retained (60_exceptions.md R90). That such a step answers
a next state is the model's choice (log entry 3). -/
def Obligations.IdleBlockKeepsItsState : Prop := ∀ s : State, s.port = [] → step s = .next s

/-- Every step answers a next state and takes the first event of the port, if there is one; an issued command gets exactly
one response (00_scope.md R4, 30_encoding.md R38, R45). The events of the port are the model's choice (log entries 1 and
8); that a step with an empty port answers next is too (log entry 3). -/
def Obligations.EveryCommandIsAnsweredOnce : Prop :=
  ∀ s : State, ∃ t, step s = .next t ∧ t.port = s.port.tail ∧
    ∀ cw rest, s.port = .command cw :: rest → ∃ r, t.responses = r :: s.responses

/-- 70_reset_and_hazards.md R104, 00_scope.md R4: a run of any list of commands, legal or not, ends with one response for
each. -/
def Obligations.EveryRunAnswersEveryCommand : Prop :=
  ∀ (is : List Instr) (s : State), ∃ t, runListing is s = .next t ∧ t.port = [] ∧
    ∃ rs, rs.length = is.length ∧ t.responses = rs ++ s.responses

/-- 30_encoding.md R49, 70_reset_and_hazards.md R104: whatever host chooses the commands from the responses, its run is
that of a fixed list of words, with one response for each. -/
def Obligations.EveryAdaptiveRunIsAFixedRun : Prop :=
  ∀ (host : List Response → Option CommandWord) (k : Nat) (s : State), s.port = [] →
    ∃ ws t, ws.length ≤ k ∧ runHost host k s = .next t ∧ runWords ws s = .next t ∧
      t.responses.length = s.responses.length + ws.length

/-- 00_scope.md R5, 10_state.md R24: the response and every state change are a function of the command word and the
architectural state; nothing else enters. -/
def Obligations.NoHiddenStateInfluencesACommand : Prop :=
  ∀ (cw : CommandWord) (s t : State), sameBlock s t →
    ∃ s' t' r, executeWord cw s = .next s' ∧ executeWord cw t = .next t' ∧ sameBlock s' t' ∧
      s'.responses = r :: s.responses ∧ t'.responses = r :: t.responses

/-- 10_state.md R19: what each command may write. `PV`, `OTID`, `IVW`, the field registers and `BUF` are written by the
commands of their rows only; `WRR` of a field index writes that field register and no other; `STB`, `STW` and `XFORM` write
no byte outside `BUF[a]`, `BUF[4n .. 4n+3]` and `BUF[0 .. n-1]`; a command that faults writes nothing but `ERR`, and that
only if it was 0. The premise `Buffer.wf` is the canonical form of the model's buffer (log entry 9). -/
def Obligations.CommandsWriteOnlyTheirRow : Prop :=
  ∀ (i : Instr) (s t : State), exec i s = .next t →
    (t.pv ≠ s.pv → ∃ d, i = .wrr 0x00 d) ∧
    (t.otid ≠ s.otid → ∃ d, i = .wrr 0x01 d) ∧
    (t.ivw ≠ s.ivw → i = .pack ∨ ∃ d, i = .wrr 0x03 d) ∧
    (t.f ≠ s.f → i = .unpack ∨ ∃ r d, i = .wrr r d ∧ 0x10 ≤ r.toNat ∧ r.toNat ≤ 0x17) ∧
    (∀ r d, i = .wrr r d → ∀ j : Fin 8, r.toNat ≠ 0x10 + j.val → getField t.f j = getField s.f j) ∧
    (t.buf ≠ s.buf → (∃ a d, i = .stb a d) ∨ (∃ n d, i = .stw n d) ∨ ∃ n, i = .xform n) ∧
    (Buffer.wf s.buf →
      (∀ a d, i = .stb a d → ∀ b, b ≠ a.toNat → readByte t.buf b = readByte s.buf b) ∧
      (∀ n d, i = .stw n d → ∀ b, b < 4 * n.toNat ∨ 4 * n.toNat + 3 < b → readByte t.buf b = readByte s.buf b) ∧
      ∀ n, i = .xform n → ∀ b, n.toNat ≤ b → readByte t.buf b = readByte s.buf b) ∧
    (t.err ≠ s.err → i.wellFormed = false ∧ s.err = 0) ∧
    (i.wellFormed = false → sameBlock t { s with err := t.err }) ∧
    t.port = s.port

/-- 10_state.md R18: a write stores exactly the value given, which a read of the same index returns. -/
def Obligations.RdrAfterWrrAnswersTheValue : Prop :=
  ∀ (s : State) (r : Index) (d : Word), Index.writable r = true → Index.fits r d = true →
    ∃ t, exec (.wrr r d) s = .next t ∧ exec (.rdr r) t = .next (answered t d)

/-- The pseudo-commands that load state, run as their expansions (30_encoding.md R48). -/
def Obligations.PseudoCommandsDoWhatTheyName : Prop :=
  ∀ (s : State) (pv otid w : Word),
    (∃ t, runListing (expandPseudo (.setid pv otid)) s = .next t ∧
      sameBlock t { s with pv := pv, otid := otid }) ∧
    (∃ t, runListing (expandPseudo (.setkey w)) s = .next t ∧ sameBlock t { s with pv := w, otid := 0 }) ∧
    (∃ t, runListing (expandPseudo (.wriv w)) s = .next t ∧ sameBlock t { s with ivw := w, f := bitDecode w }) ∧
    (∃ t, runListing (expandPseudo .clrf) s = .next t ∧ sameBlock t { s with f := Fields.zero })

/-- The invariant of the block holds after reset. The list of responses and the canonical form of the buffer are the
model's (log entries 2 and 9). -/
def Obligations.ResetSatisfiesTheBlockInvariant : Prop := State.Inv State.reset

/-- The invariant of the block (the buffer canonical, every response legal, `ERR` the first fault since reset: 10_state.md
R15, 60_exceptions.md R85) is kept by every step from every state that meets it, whatever the host does. The list of
responses and the canonical form are the model's (log entries 2 and 9). -/
def Obligations.StepKeepsTheBlockInvariant : Prop :=
  ∀ s t : State, State.Inv s → step s = .next t → State.Inv t
end

