-- ==== Sys2Proof/Laws/State.lean ====
section
/-! SUPPORT. One lemma per field per update of the state, so that no proof unfolds a record update. -/

namespace Sys2Proof.Machine

variable (s : State)

@[simp] theorem setPv_pv (v : Word) : (s.setPv v).pv = v := rfl
@[simp] theorem setPv_otid (v : Word) : (s.setPv v).otid = s.otid := rfl
@[simp] theorem setPv_ivw (v : Word) : (s.setPv v).ivw = s.ivw := rfl
@[simp] theorem setPv_err (v : Word) : (s.setPv v).err = s.err := rfl
@[simp] theorem setPv_f (v : Word) : (s.setPv v).f = s.f := rfl
@[simp] theorem setPv_buf (v : Word) : (s.setPv v).buf = s.buf := rfl
@[simp] theorem setPv_port (v : Word) : (s.setPv v).port = s.port := rfl
@[simp] theorem setPv_responses (v : Word) : (s.setPv v).responses = s.responses := rfl

@[simp] theorem setOtid_pv (v : Word) : (s.setOtid v).pv = s.pv := rfl
@[simp] theorem setOtid_otid (v : Word) : (s.setOtid v).otid = v := rfl
@[simp] theorem setOtid_ivw (v : Word) : (s.setOtid v).ivw = s.ivw := rfl
@[simp] theorem setOtid_err (v : Word) : (s.setOtid v).err = s.err := rfl
@[simp] theorem setOtid_f (v : Word) : (s.setOtid v).f = s.f := rfl
@[simp] theorem setOtid_buf (v : Word) : (s.setOtid v).buf = s.buf := rfl
@[simp] theorem setOtid_port (v : Word) : (s.setOtid v).port = s.port := rfl
@[simp] theorem setOtid_responses (v : Word) : (s.setOtid v).responses = s.responses := rfl

@[simp] theorem setIvw_pv (v : Word) : (s.setIvw v).pv = s.pv := rfl
@[simp] theorem setIvw_otid (v : Word) : (s.setIvw v).otid = s.otid := rfl
@[simp] theorem setIvw_ivw (v : Word) : (s.setIvw v).ivw = v := rfl
@[simp] theorem setIvw_err (v : Word) : (s.setIvw v).err = s.err := rfl
@[simp] theorem setIvw_f (v : Word) : (s.setIvw v).f = s.f := rfl
@[simp] theorem setIvw_buf (v : Word) : (s.setIvw v).buf = s.buf := rfl
@[simp] theorem setIvw_port (v : Word) : (s.setIvw v).port = s.port := rfl
@[simp] theorem setIvw_responses (v : Word) : (s.setIvw v).responses = s.responses := rfl

@[simp] theorem setFields_pv (v : Fields) : (s.setFields v).pv = s.pv := rfl
@[simp] theorem setFields_otid (v : Fields) : (s.setFields v).otid = s.otid := rfl
@[simp] theorem setFields_ivw (v : Fields) : (s.setFields v).ivw = s.ivw := rfl
@[simp] theorem setFields_err (v : Fields) : (s.setFields v).err = s.err := rfl
@[simp] theorem setFields_f (v : Fields) : (s.setFields v).f = v := rfl
@[simp] theorem setFields_buf (v : Fields) : (s.setFields v).buf = s.buf := rfl
@[simp] theorem setFields_port (v : Fields) : (s.setFields v).port = s.port := rfl
@[simp] theorem setFields_responses (v : Fields) : (s.setFields v).responses = s.responses := rfl

@[simp] theorem setBuf_pv (m : Buffer) : (s.setBuf m).pv = s.pv := rfl
@[simp] theorem setBuf_otid (m : Buffer) : (s.setBuf m).otid = s.otid := rfl
@[simp] theorem setBuf_ivw (m : Buffer) : (s.setBuf m).ivw = s.ivw := rfl
@[simp] theorem setBuf_err (m : Buffer) : (s.setBuf m).err = s.err := rfl
@[simp] theorem setBuf_f (m : Buffer) : (s.setBuf m).f = s.f := rfl
@[simp] theorem setBuf_buf (m : Buffer) : (s.setBuf m).buf = m := rfl
@[simp] theorem setBuf_port (m : Buffer) : (s.setBuf m).port = s.port := rfl
@[simp] theorem setBuf_responses (m : Buffer) : (s.setBuf m).responses = s.responses := rfl

@[simp] theorem respond_pv (v : Word) : (s.respond v).pv = s.pv := rfl
@[simp] theorem respond_otid (v : Word) : (s.respond v).otid = s.otid := rfl
@[simp] theorem respond_ivw (v : Word) : (s.respond v).ivw = s.ivw := rfl
@[simp] theorem respond_err (v : Word) : (s.respond v).err = s.err := rfl
@[simp] theorem respond_f (v : Word) : (s.respond v).f = s.f := rfl
@[simp] theorem respond_buf (v : Word) : (s.respond v).buf = s.buf := rfl
@[simp] theorem respond_port (v : Word) : (s.respond v).port = s.port := rfl
@[simp] theorem respond_responses (v : Word) : (s.respond v).responses = ⟨0, v⟩ :: s.responses := rfl

@[simp] theorem withPort_pv (p : List HostEvent) : (s.withPort p).pv = s.pv := rfl
@[simp] theorem withPort_otid (p : List HostEvent) : (s.withPort p).otid = s.otid := rfl
@[simp] theorem withPort_ivw (p : List HostEvent) : (s.withPort p).ivw = s.ivw := rfl
@[simp] theorem withPort_err (p : List HostEvent) : (s.withPort p).err = s.err := rfl
@[simp] theorem withPort_f (p : List HostEvent) : (s.withPort p).f = s.f := rfl
@[simp] theorem withPort_buf (p : List HostEvent) : (s.withPort p).buf = s.buf := rfl
@[simp] theorem withPort_port (p : List HostEvent) : (s.withPort p).port = p := rfl
@[simp] theorem withPort_responses (p : List HostEvent) : (s.withPort p).responses = s.responses := rfl

@[simp] theorem issue_pv (cw : CommandWord) : (s.issue cw).pv = s.pv := rfl
@[simp] theorem issue_otid (cw : CommandWord) : (s.issue cw).otid = s.otid := rfl
@[simp] theorem issue_ivw (cw : CommandWord) : (s.issue cw).ivw = s.ivw := rfl
@[simp] theorem issue_err (cw : CommandWord) : (s.issue cw).err = s.err := rfl
@[simp] theorem issue_f (cw : CommandWord) : (s.issue cw).f = s.f := rfl
@[simp] theorem issue_buf (cw : CommandWord) : (s.issue cw).buf = s.buf := rfl
@[simp] theorem issue_port (cw : CommandWord) : (s.issue cw).port = .command cw :: s.port := rfl
@[simp] theorem issue_responses (cw : CommandWord) : (s.issue cw).responses = s.responses := rfl

@[simp] theorem raiseFault_pv (c : Cause) : (raiseFault c s).pv = s.pv := rfl
@[simp] theorem raiseFault_otid (c : Cause) : (raiseFault c s).otid = s.otid := rfl
@[simp] theorem raiseFault_ivw (c : Cause) : (raiseFault c s).ivw = s.ivw := rfl
@[simp] theorem raiseFault_err (c : Cause) : (raiseFault c s).err = latchErr s.err c := rfl
@[simp] theorem raiseFault_f (c : Cause) : (raiseFault c s).f = s.f := rfl
@[simp] theorem raiseFault_buf (c : Cause) : (raiseFault c s).buf = s.buf := rfl
@[simp] theorem raiseFault_port (c : Cause) : (raiseFault c s).port = s.port := rfl
@[simp] theorem raiseFault_responses (c : Cause) : (raiseFault c s).responses = ⟨causeCode c, 0⟩ :: s.responses := rfl

@[simp] theorem resetBlock_pv : (resetBlock s).pv = 0 := rfl
@[simp] theorem resetBlock_otid : (resetBlock s).otid = 0 := rfl
@[simp] theorem resetBlock_ivw : (resetBlock s).ivw = 0 := rfl
@[simp] theorem resetBlock_err : (resetBlock s).err = 0 := rfl
@[simp] theorem resetBlock_f : (resetBlock s).f = Fields.zero := rfl
@[simp] theorem resetBlock_buf : (resetBlock s).buf = [] := rfl
@[simp] theorem resetBlock_port : (resetBlock s).port = s.port := rfl
@[simp] theorem resetBlock_responses : (resetBlock s).responses = [] := rfl

end Sys2Proof.Machine
end

