-- ==== Sys2Proof/Laws/Ops.lean ====
section
/-! SUPPORT. What the buffer operations and the shared outcomes do, said once: a read after a write, the canonical form
kept, little-endian words, the two ways a command ends. -/

namespace Sys2Proof.Machine

/-! ### Reading a canonical buffer -/

@[simp] theorem readByte_nil (a : Nat) : readByte [] a = 0 := rfl

theorem readByte_cons (c : Host.Cell) (m : Buffer) (a : Nat) :
    readByte (c :: m) a = if c.1 = a then c.2 else readByte m a := rfl

theorem readByte_of_below (m : Buffer) (a : Nat) (h : ∀ c ∈ m, a < c.1) : readByte m a = 0 := by
  induction m with
  | nil => rfl
  | cons c m ih =>
    have hc : a < c.1 := h c (by simp)
    rw [readByte_cons, if_neg (by omega)]
    exact ih fun d hd => h d (by simp [hd])

theorem wf_nil : Buffer.wf [] := by simp [Buffer.wf]

theorem wf_cons_iff (c : Host.Cell) (m : Buffer) :
    Buffer.wf (c :: m) ↔ (∀ d ∈ m, c.1 < d.1) ∧ c.1 < Config.bufBytes ∧ c.2 ≠ 0 ∧ Buffer.wf m := by
  simp only [Buffer.wf, List.pairwise_cons, List.mem_cons, forall_eq_or_imp]
  tauto

/-- A canonical buffer lists nothing outside `BUF`, so an address outside reads 0. -/
theorem readByte_outside {m : Buffer} (hm : Buffer.wf m) {a : Nat} (ha : Config.bufBytes ≤ a) : readByte m a = 0 := by
  induction m with
  | nil => rfl
  | cons c m ih =>
    obtain ⟨-, hb, -, hm'⟩ := (wf_cons_iff c m).1 hm
    rw [readByte_cons, if_neg (by omega), ih hm']

/-- Canonical buffers with the same bytes are the same data. -/
theorem buffer_ext {m n : Buffer} (hm : Buffer.wf m) (hn : Buffer.wf n) (h : ∀ a, readByte m a = readByte n a) :
    m = n := by
  induction m generalizing n with
  | nil =>
    cases n with
    | nil => rfl
    | cons d n =>
      obtain ⟨-, -, hz, -⟩ := (wf_cons_iff d n).1 hn
      have := h d.1
      rw [readByte_cons, if_pos rfl] at this
      exact absurd this.symm hz
  | cons c m ih =>
    obtain ⟨hcl, -, hcz, hm'⟩ := (wf_cons_iff c m).1 hm
    cases n with
    | nil =>
      have := h c.1
      rw [readByte_cons, if_pos rfl] at this
      exact absurd this hcz
    | cons d n =>
      obtain ⟨hdl, -, hdz, hn'⟩ := (wf_cons_iff d n).1 hn
      have hc := h c.1
      have hd := h d.1
      rw [readByte_cons, readByte_cons, if_pos rfl] at hc hd
      have hcd : c.1 = d.1 := by
        by_contra hne
        rcases Nat.lt_or_gt_of_ne hne with hlt | hgt
        · rw [if_neg (by omega), readByte_of_below n c.1 fun e he => Nat.lt_trans hlt (hdl e he)] at hc
          exact hcz hc
        · rw [if_neg (by omega), readByte_of_below m d.1 fun e he => Nat.lt_trans hgt (hcl e he)] at hd
          exact hdz hd.symm
      rw [if_pos hcd.symm] at hc
      have hrest : m = n := by
        refine ih hm' hn' fun a => ?_
        have ha := h a
        rw [readByte_cons, readByte_cons] at ha
        by_cases hca : c.1 = a
        · rw [readByte_of_below m a fun e he => hca ▸ hcl e he,
            readByte_of_below n a fun e he => hca ▸ hcd ▸ hdl e he]
        · rwa [if_neg hca, if_neg (by omega)] at ha
      rw [hrest, Prod.ext hcd hc]

/-! ### Writing a byte -/

theorem readByte_consCell {m : Buffer} (a : Nat) (v : Byte) (b : Nat) (h : ∀ c ∈ m, a < c.1) :
    readByte (consCell a v m) b = if b = a then v else readByte m b := by
  unfold consCell
  by_cases hv : v = 0
  · rw [if_pos hv]
    by_cases hb : b = a
    · rw [if_pos hb, hb, hv, readByte_of_below m a h]
    · rw [if_neg hb]
  · rw [if_neg hv, readByte_cons]
    by_cases hb : b = a
    · simp [hb]
    · rw [if_neg hb, if_neg (Ne.symm hb)]

theorem mem_writeByte {m : Buffer} {a : Nat} {v : Byte} {c : Host.Cell} (h : c ∈ writeByte m a v) :
    c.1 = a ∨ c ∈ m := by
  induction m with
  | nil =>
    simp only [writeByte, consCell] at h
    split at h <;> simp_all
  | cons d m ih =>
    simp only [writeByte, consCell] at h
    split at h
    · split at h
      · exact .inr h
      · rcases List.mem_cons.1 h with rfl | h
        · exact .inl rfl
        · exact .inr h
    · split at h
      · split at h <;> simp_all
        rcases h with rfl | h <;> simp_all
      · rcases List.mem_cons.1 h with rfl | h
        · simp
        · rcases ih h with h | h <;> simp [h]

/-- A read after a write of one byte: that byte, and every other address as before. -/
theorem readByte_writeByte {m : Buffer} (hm : Buffer.wf m) (a : Nat) (v : Byte) (b : Nat) :
    readByte (writeByte m a v) b = if b = a then v else readByte m b := by
  induction m with
  | nil => exact readByte_consCell a v b (by simp)
  | cons c m ih =>
    obtain ⟨hl, -, -, hm'⟩ := (wf_cons_iff c m).1 hm
    simp only [writeByte]
    split
    · rename_i hlt
      exact readByte_consCell a v b fun d hd => by
        rcases List.mem_cons.1 hd with rfl | hd
        · exact hlt
        · exact Nat.lt_trans hlt (hl d hd)
    · split
      · rename_i heq
        rw [readByte_consCell a v b (heq ▸ hl), readByte_cons]
        by_cases hb : b = a
        · simp [hb]
        · rw [if_neg hb, if_neg hb, if_neg (by omega)]
      · rename_i hne
        rw [readByte_cons, readByte_cons, ih hm']
        by_cases hca : c.1 = b
        · rw [if_pos hca, if_neg (by omega), if_pos hca]
        · rw [if_neg hca, if_neg hca]

theorem wf_consCell {m : Buffer} {a : Nat} (v : Byte) (hm : Buffer.wf m) (ha : a < Config.bufBytes)
    (h : ∀ c ∈ m, a < c.1) : Buffer.wf (consCell a v m) := by
  unfold consCell
  by_cases hv : v = 0
  · rwa [if_pos hv]
  · rw [if_neg hv, wf_cons_iff]
    exact ⟨h, ha, hv, hm⟩

/-- A write inside the buffer keeps the canonical form. -/
theorem wf_writeByte {m : Buffer} (hm : Buffer.wf m) {a : Nat} (ha : a < Config.bufBytes) (v : Byte) :
    Buffer.wf (writeByte m a v) := by
  induction m with
  | nil => exact wf_consCell v wf_nil ha (by simp)
  | cons c m ih =>
    obtain ⟨hl, hb, hz, hm'⟩ := (wf_cons_iff c m).1 hm
    simp only [writeByte]
    split
    · rename_i hlt
      exact wf_consCell v hm ha fun d hd => by
        rcases List.mem_cons.1 hd with rfl | hd
        · exact hlt
        · exact Nat.lt_trans hlt (hl d hd)
    · split
      · rename_i heq
        exact wf_consCell v hm' ha (heq ▸ hl)
      · rw [wf_cons_iff]
        refine ⟨fun d hd => ?_, hb, hz, ih hm'⟩
        rcases mem_writeByte hd with h | h
        · omega
        · exact hl d h

/-! ### Words -/

theorem byteOf_toNat (v : Word) (j : Nat) : (byteOf v j).toNat = v.toNat / 2 ^ (8 * j) % 2 ^ 8 := by
  simp [byteOf, Nat.shiftRight_eq_div_pow]

/-- The OR of a value and a shifted one that does not reach it is their sum. -/
theorem or_shiftLeft_eq_add {x k : Nat} (y : Nat) (h : x < 2 ^ k) : x ||| y <<< k = x + 2 ^ k * y := by
  rw [Nat.shiftLeft_eq, Nat.mul_comm y, Nat.or_comm, ← Nat.two_pow_add_eq_or_of_lt h y, Nat.add_comm]

/-- A narrow value shifted inside a wide one loses no bit. -/
theorem setWidth_shiftLeft_toNat {w n k : Nat} (b : BitVec w) (h : w + k ≤ n) :
    (b.setWidth n <<< k).toNat = b.toNat <<< k := by
  have hb : b.toNat * 2 ^ k < 2 ^ n :=
    calc b.toNat * 2 ^ k < 2 ^ w * 2 ^ k := Nat.mul_lt_mul_of_pos_right b.isLt (Nat.two_pow_pos k)
      _ = 2 ^ (w + k) := (Nat.pow_add 2 w k).symm
      _ ≤ 2 ^ n := Nat.pow_le_pow_right (by decide) h
  have hn : b.toNat < 2 ^ n := Nat.lt_of_lt_of_le b.isLt (Nat.pow_le_pow_right (by decide) (by omega))
  rw [BitVec.toNat_shiftLeft, BitVec.toNat_setWidth, Nat.mod_eq_of_lt hn, Nat.shiftLeft_eq, Nat.mod_eq_of_lt hb]

/-- The little-endian value of four bytes (20_memory.md R26). -/
theorem wordOf_toNat (b0 b1 b2 b3 : Byte) :
    (wordOf b0 b1 b2 b3).toNat = b0.toNat + 2 ^ 8 * b1.toNat + 2 ^ 16 * b2.toNat + 2 ^ 24 * b3.toNat := by
  have := b0.isLt
  have := b1.isLt
  have := b2.isLt
  rw [wordOf, BitVec.toNat_or, BitVec.toNat_or, BitVec.toNat_or, setWidth_shiftLeft_toNat _ (by decide),
    setWidth_shiftLeft_toNat _ (by decide), setWidth_shiftLeft_toNat _ (by decide), BitVec.toNat_setWidth,
    Nat.mod_eq_of_lt (by omega), or_shiftLeft_eq_add b1.toNat (by omega), or_shiftLeft_eq_add b2.toNat (by omega),
    or_shiftLeft_eq_add b3.toNat (by omega)]

@[simp] theorem byteOf_wordOf_zero (b0 b1 b2 b3 : Byte) : byteOf (wordOf b0 b1 b2 b3) 0 = b0 := by
  apply BitVec.eq_of_toNat_eq
  have := b0.isLt
  rw [byteOf_toNat, wordOf_toNat]
  omega

@[simp] theorem byteOf_wordOf_one (b0 b1 b2 b3 : Byte) : byteOf (wordOf b0 b1 b2 b3) 1 = b1 := by
  apply BitVec.eq_of_toNat_eq
  have := b0.isLt
  have := b1.isLt
  rw [byteOf_toNat, wordOf_toNat]
  omega

@[simp] theorem byteOf_wordOf_two (b0 b1 b2 b3 : Byte) : byteOf (wordOf b0 b1 b2 b3) 2 = b2 := by
  apply BitVec.eq_of_toNat_eq
  have := b0.isLt
  have := b1.isLt
  have := b2.isLt
  rw [byteOf_toNat, wordOf_toNat]
  omega

@[simp] theorem byteOf_wordOf_three (b0 b1 b2 b3 : Byte) : byteOf (wordOf b0 b1 b2 b3) 3 = b3 := by
  apply BitVec.eq_of_toNat_eq
  have := b0.isLt
  have := b1.isLt
  have := b2.isLt
  have := b3.isLt
  rw [byteOf_toNat, wordOf_toNat]
  omega

/-- A word is the word of its four bytes. -/
@[simp] theorem wordOf_byteOf (v : Word) : wordOf (byteOf v 0) (byteOf v 1) (byteOf v 2) (byteOf v 3) = v := by
  apply BitVec.eq_of_toNat_eq
  have := v.isLt
  simp only [wordOf_toNat, byteOf_toNat]
  omega

/-- Byte by byte, the exclusive OR of words is that of their bytes. -/
@[simp] theorem byteOf_xor (v k : Word) (j : Nat) : byteOf (v ^^^ k) j = byteOf v j ^^^ byteOf k j := by
  ext i hi
  simp [byteOf]

/-- A word write inside the buffer keeps the canonical form. -/
theorem wf_writeWord {m : Buffer} (hm : Buffer.wf m) {a : Nat} (ha : a + 3 < Config.bufBytes) (v : Word) :
    Buffer.wf (writeWord m a v) :=
  wf_writeByte (wf_writeByte (wf_writeByte (wf_writeByte hm (by omega) _) (by omega) _) (by omega) _) ha _

/-- A byte read after a word write: byte `j` of the word at `a + j`, every other address as before. -/
theorem readByte_writeWord {m : Buffer} (hm : Buffer.wf m) {a : Nat} (ha : a + 3 < Config.bufBytes) (v : Word)
    (b : Nat) :
    readByte (writeWord m a v) b = if a ≤ b ∧ b ≤ a + 3 then byteOf v (b - a) else readByte m b := by
  have h0 := wf_writeByte hm (show a < Config.bufBytes by omega) (byteOf v 0)
  have h1 := wf_writeByte h0 (show a + 1 < Config.bufBytes by omega) (byteOf v 1)
  have h2 := wf_writeByte h1 (show a + 2 < Config.bufBytes by omega) (byteOf v 2)
  rw [writeWord, readByte_writeByte h2, readByte_writeByte h1, readByte_writeByte h0, readByte_writeByte hm]
  by_cases hb : a ≤ b ∧ b ≤ a + 3
  · obtain ⟨j, rfl⟩ : ∃ j, b = a + j := ⟨b - a, by omega⟩
    have hj : j = 0 ∨ j = 1 ∨ j = 2 ∨ j = 3 := by omega
    rcases hj with rfl | rfl | rfl | rfl <;> simp
  · rw [if_neg hb, if_neg (by omega), if_neg (by omega), if_neg (by omega), if_neg (by omega)]

/-- A byte of a word read is the byte at its address. -/
theorem byteOf_readWord (m : Buffer) (a : Nat) {j : Nat} (hj : j < 4) : byteOf (readWord m a) j = readByte m (a + j) := by
  have h : j = 0 ∨ j = 1 ∨ j = 2 ∨ j = 3 := by omega
  rcases h with rfl | rfl | rfl | rfl <;> simp [readWord]

/-! ### How a command ends -/

@[simp] theorem complete_eq_next (v : Word) (s t : State) : complete v s = .next t ↔ s.respond v = t := by
  simp [complete]

@[simp] theorem takeFault_eq_next (c : Cause) (s t : State) : takeFault c s = .next t ↔ raiseFault c s = t := by
  simp [takeFault]

theorem causeCode_ne_zero (c : Cause) : causeCode c ≠ 0 := by cases c <;> decide

theorem causeCode_le (c : Cause) : (causeCode c).toNat ≤ 3 := by cases c <;> decide

/-- `ERR` after a fault is never 0. -/
theorem latchErr_ne_zero (e : BitVec 4) (c : Cause) : latchErr e c ≠ 0 := by
  unfold latchErr
  split
  · exact causeCode_ne_zero c
  · assumption

@[simp] theorem rejectCause_eq (e : DecodeError) : rejectCause e = .illegal := by cases e <;> rfl

/-! ### Fields of a command word -/

theorem commandWord_toNat (op : BitVec 8) (idx : Index) (data : Word) :
    (commandWord op idx data).toNat = op.toNat * 2 ^ 40 + idx.toNat * 2 ^ 32 + data.toNat := by
  have := idx.isLt
  have := data.isLt
  rw [commandWord, BitVec.toNat_or, BitVec.toNat_or, setWidth_shiftLeft_toNat _ (by decide),
    setWidth_shiftLeft_toNat _ (by decide), BitVec.toNat_setWidth, Nat.mod_eq_of_lt (by omega),
    or_shiftLeft_eq_add idx.toNat (by omega), or_shiftLeft_eq_add op.toNat (by omega)]
  generalize op.toNat = x
  generalize idx.toNat = y
  generalize data.toNat = z
  omega

theorem high_field (x y z : Nat) (hx : x < 2 ^ 8) (hy : y < 2 ^ 8) (hz : z < 2 ^ 32) :
    (x * 2 ^ 40 + y * 2 ^ 32 + z) / 2 ^ 40 % 2 ^ 8 = x := by omega

theorem middle_field (x y z : Nat) (hy : y < 2 ^ 8) (hz : z < 2 ^ 32) :
    (x * 2 ^ 40 + y * 2 ^ 32 + z) / 2 ^ 32 % 2 ^ 8 = y := by omega

theorem low_field (x y z : Nat) (hz : z < 2 ^ 32) : (x * 2 ^ 40 + y * 2 ^ 32 + z) / 2 ^ 0 % 2 ^ 32 = z := by omega

theorem three_fields (w : Nat) (hw : w < 2 ^ 48) :
    w / 2 ^ 40 % 2 ^ 8 * 2 ^ 40 + w / 2 ^ 32 % 2 ^ 8 * 2 ^ 32 + w / 2 ^ 0 % 2 ^ 32 = w := by omega

theorem opField_commandWord (op : BitVec 8) (idx : Index) (data : Word) :
    opField (commandWord op idx data) = op := by
  apply BitVec.eq_of_toNat_eq
  rw [opField, BitVec.extractLsb'_toNat, commandWord_toNat, Nat.shiftRight_eq_div_pow]
  exact high_field _ _ _ op.isLt idx.isLt data.isLt

theorem idxField_commandWord (op : BitVec 8) (idx : Index) (data : Word) :
    idxField (commandWord op idx data) = idx := by
  apply BitVec.eq_of_toNat_eq
  rw [idxField, BitVec.extractLsb'_toNat, commandWord_toNat, Nat.shiftRight_eq_div_pow]
  exact middle_field _ _ _ idx.isLt data.isLt

theorem dataField_commandWord (op : BitVec 8) (idx : Index) (data : Word) :
    dataField (commandWord op idx data) = data := by
  apply BitVec.eq_of_toNat_eq
  rw [dataField, BitVec.extractLsb'_toNat, commandWord_toNat, Nat.shiftRight_eq_div_pow]
  exact low_field _ _ _ data.isLt

/-- A command word is the word of its three fields. -/
theorem commandWord_fields (cw : CommandWord) : commandWord (opField cw) (idxField cw) (dataField cw) = cw := by
  apply BitVec.eq_of_toNat_eq
  rw [commandWord_toNat, opField, idxField, dataField, BitVec.extractLsb'_toNat, BitVec.extractLsb'_toNat,
    BitVec.extractLsb'_toNat, Nat.shiftRight_eq_div_pow, Nat.shiftRight_eq_div_pow, Nat.shiftRight_eq_div_pow]
  exact three_fields _ cw.isLt

/-- Decoding a command word looks at its three fields only. -/
theorem decode_commandWord (op : BitVec 8) (idx : Index) (data : Word) :
    decode (commandWord op idx data) =
      match op.toNat with
      | 0x00 => noOperands idx data .nop
      | 0x01 => noData data (.rdr idx)
      | 0x02 => .ok (.wrr idx data)
      | 0x03 => noData data (.ldb idx)
      | 0x04 => .ok (.stb idx data)
      | 0x05 => noData data (.ldw idx)
      | 0x06 => .ok (.stw idx data)
      | 0x10 => noOperands idx data .unpack
      | 0x11 => noOperands idx data .pack
      | 0x20 => noIdx idx (.xform data)
      | 0x30 => noOperands idx data .order
      | _ => .error .unknownOpcode := by
  unfold decode
  simp only [opField_commandWord, idxField_commandWord, dataField_commandWord] <;> rfl

end Sys2Proof.Machine
end

