-- ==== Sys2Proof/Laws/Operands.lean ====
section
/-! SUPPORT. What each operand form and each register write can answer, and what the transform loop leaves in the buffer,
said once. -/

namespace Sys2Proof.Machine

/-- The register map names a register at exactly the readable indices of `WellFormed`. -/
theorem regOf_isSome (r : Index) : (regOf r).isSome = Index.readable r := by
  revert r
  decide

theorem byteAddress_eq (a : Index) :
    byteAddress a = if a.toNat < Config.bufBytes then .ok a.toNat else .error .range := rfl

theorem wordAddress_eq (n : Index) :
    wordAddress n = if n.toNat < Config.bufBytes / 4 then .ok (4 * n.toNat) else .error .range := rfl

theorem byteOperand_eq (d : Word) :
    byteOperand d = if d.toNat ≤ 0xFF then .ok (d.setWidth 8) else .error .range := rfl

/-- If a word address is answered, its four bytes lie in the buffer. -/
theorem wordAddress_ok {n : Index} {a : Nat} (h : wordAddress n = .ok a) :
    a = 4 * n.toNat ∧ a + 3 < Config.bufBytes := by
  rw [wordAddress_eq] at h
  split at h
  · rename_i hn
    have ha : 4 * n.toNat = a := by simpa using h
    simp only [Config.bufBytes] at *
    omega
  · simp at h

/-- If a byte address is answered, it is the index and lies in the buffer. -/
theorem byteAddress_ok {n : Index} {a : Nat} (h : byteAddress n = .ok a) : a = n.toNat ∧ a < Config.bufBytes := by
  rw [byteAddress_eq] at h
  split at h
  · have ha : n.toNat = a := by simpa using h
    omega
  · simp at h

/-- If a transform length is answered, it is the number of words of an aligned length inside the buffer. -/
theorem transformLength_ok {n : Word} {count : Nat} (h : transformLength n = .ok count) :
    4 * count = n.toNat ∧ 4 * count ≤ Config.bufBytes := by
  unfold transformLength at h
  split at h
  · simp at h
  · split at h
    · have hc : n.toNat / 4 = count := by simpa using h
      omega
    · simp at h

/-- If a register write is answered, the register was writable, and the ports, the buffer and `ERR` are as before. -/
theorem writeReg_ok {s t : State} {r : Reg} {d : Word} (h : writeReg s r d = .ok t) :
    r ≠ .key ∧ r ≠ .err ∧ t.err = s.err ∧ t.buf = s.buf ∧ t.port = s.port ∧ t.responses = s.responses := by
  cases r <;> simp only [writeReg] at h
  case field i =>
    split at h
    · cases h
      simp
    · cases h
  all_goals cases h
  all_goals simp

/-- If a register write is refused, the register is read-only or the value is too wide for a field register. -/
theorem writeReg_error {s : State} {r : Reg} {d : Word} {c : Cause} (h : writeReg s r d = .error c) :
    (c = .illegal ∧ (r = .key ∨ r = .err)) ∨
      (c = .range ∧ ∃ i, r = .field i ∧ 2 ^ fieldWidth i ≤ d.toNat) := by
  cases r <;> simp only [writeReg] at h
  case field i =>
    split at h
    · cases h
    · cases h
      exact .inr ⟨rfl, i, rfl, by omega⟩
  all_goals cases h
  all_goals simp

/-- A field register reads back a value that fits it. -/
theorem getField_setField (f : Fields) (i : Fin 8) {d : Word} (h : d.toNat < 2 ^ fieldWidth i) :
    getField (setField f i d) i = d := by
  apply BitVec.eq_of_toNat_eq
  fin_cases i <;> simp only [fieldWidth] at h <;> simp [getField, setField] <;> omega

/-- Setting a field register leaves the others alone. -/
theorem getField_setField_other (f : Fields) {i j : Fin 8} (h : j ≠ i) (d : Word) :
    getField (setField f i d) j = getField f j := by
  fin_cases i <;> fin_cases j <;> first | rfl | exact absurd rfl h

/-! ### The transform loop -/

theorem wf_xformWords {m : Buffer} (hm : Buffer.wf m) (k : Word) {count : Nat} (h : 4 * count ≤ Config.bufBytes) :
    Buffer.wf (xformWords k count m) := by
  induction count with
  | zero => exact hm
  | succ i ih => exact wf_writeWord (ih (by omega)) (by omega) _

/-- After the loop each of the first `4 * count` bytes is XORed with the key byte of its place, and no other byte is
changed (42_cipher.md R66). -/
theorem readByte_xformWords {m : Buffer} (hm : Buffer.wf m) (k : Word) {count : Nat} (h : 4 * count ≤ Config.bufBytes)
    (a : Nat) :
    readByte (xformWords k count m) a = if a < 4 * count then readByte m a ^^^ byteOf k (a % 4) else readByte m a := by
  induction count generalizing a with
  | zero => simp [xformWords]
  | succ i ih =>
    have hi : 4 * i ≤ Config.bufBytes := by omega
    rw [xformWords, readByte_writeWord (wf_xformWords hm k hi) (by omega), xformWord, byteOf_xor]
    by_cases ha : 4 * i ≤ a ∧ a ≤ 4 * i + 3
    · rw [if_pos ha, if_pos (by omega), byteOf_readWord _ _ (by omega), show 4 * i + (a - 4 * i) = a by omega, ih hi,
        if_neg (by omega), show a - 4 * i = a % 4 by omega]
    · rw [if_neg ha, ih hi]
      by_cases hb : a < 4 * i
      · rw [if_pos hb, if_pos (by omega)]
      · rw [if_neg hb, if_neg (by omega)]

end Sys2Proof.Machine
end

