-- ==== Sys2Proof/Laws/PerInstr.lean ====
section
/-! SUPPORT. Statements made per instruction: what the three fields of each command word hold (spec/30_encoding.md R39,
R41). -/

namespace Sys2Proof.Laws.EncodedFields

open Sys2Proof.Machine

/-- The three fields of a command word. -/
def fields (cw : CommandWord) : BitVec 8 × Index × Word := (opField cw, idxField cw, dataField cw)

/-- The command word pattern of R41: the opcode, the operands the command has, zero where it has none. -/
def Statement (i : Instr) : Prop :=
  fields (encode i) =
    match i with
    | .nop => (0x00, 0, 0)
    | .rdr r => (0x01, r, 0)
    | .wrr r d => (0x02, r, d)
    | .ldb a => (0x03, a, 0)
    | .stb a d => (0x04, a, d)
    | .ldw n => (0x05, n, 0)
    | .stw n d => (0x06, n, d)
    | .unpack => (0x10, 0, 0)
    | .pack => (0x11, 0, 0)
    | .xform n => (0x20, 0, n)
    | .order => (0x30, 0, 0)

theorem fields_commandWord (op : BitVec 8) (idx : Index) (data : Word) :
    fields (commandWord op idx data) = (op, idx, data) := by
  rw [fields, opField_commandWord, idxField_commandWord, dataField_commandWord]

theorem nop : Statement .nop := fields_commandWord _ _ _
theorem rdr (r : Index) : Statement (.rdr r) := fields_commandWord _ _ _
theorem wrr (r : Index) (d : Word) : Statement (.wrr r d) := fields_commandWord _ _ _
theorem ldb (a : Index) : Statement (.ldb a) := fields_commandWord _ _ _
theorem stb (a : Index) (d : Word) : Statement (.stb a d) := fields_commandWord _ _ _
theorem ldw (n : Index) : Statement (.ldw n) := fields_commandWord _ _ _
theorem stw (n : Index) (d : Word) : Statement (.stw n d) := fields_commandWord _ _ _
theorem unpack : Statement .unpack := fields_commandWord _ _ _
theorem pack : Statement .pack := fields_commandWord _ _ _
theorem xform (n : Word) : Statement (.xform n) := fields_commandWord _ _ _
theorem order : Statement .order := fields_commandWord _ _ _

end Sys2Proof.Laws.EncodedFields
end

