-- ==== Sys2Proof/Laws/Step.lean ====
section
/-! SUPPORT. What a step can do, said once. -/

namespace Sys2Proof.Machine

/-- If a step answers `t`, the block was idle, or took a command word, or was reset. -/
theorem step_cases {s t : State} (h : step s = .next t) :
    (s.port = [] ∧ t = s) ∨
    (∃ cw rest, s.port = .command cw :: rest ∧ executeWord cw (s.withPort rest) = .next t) ∨
    (∃ rest, s.port = .reset :: rest ∧ t = State.reset.withPort rest) ∨
    ∃ cw rest, s.port = .issueThenReset cw :: rest ∧ t = State.reset.withPort rest := by
  rw [step] at h
  split at h
  · rename_i hp
    exact .inl ⟨hp, (Host.Outcome.next.inj h).symm⟩
  · rename_i cw rest hp
    exact .inr (.inl ⟨cw, rest, hp, h⟩)
  · rename_i rest hp
    exact .inr (.inr (.inl ⟨rest, hp, (Host.Outcome.next.inj h).symm⟩))
  · rename_i cw rest hp
    exact .inr (.inr (.inr ⟨cw, rest, hp, (Host.Outcome.next.inj h).symm⟩))

/-- If a command word is executed, it decodes and its command runs, or the fault `E_ILLEGAL` is taken. -/
theorem executeWord_cases {cw : CommandWord} {s t : State} (h : executeWord cw s = .next t) :
    (∃ i, decode cw = .ok i ∧ exec i s = .next t) ∨ (∃ e, decode cw = .error e ∧ t = raiseFault .illegal s) := by
  rw [executeWord] at h
  split at h
  · rename_i i hd
    exact .inl ⟨i, hd, h⟩
  · rename_i e hd
    rw [rejectCause_eq, takeFault_eq_next] at h
    exact .inr ⟨e, hd, h.symm⟩

end Sys2Proof.Machine
end

