-- ==== Sys2Proof/Tests/Slice0.lean ====
section
/-! SUPPORT. Tests on fixed values, most of them vectors of spec/95_test_vectors.md (named in the comments), the smoke
tests of `wellFormed`, and for each statement with hypotheses a witness that meets them. -/

namespace Sys2Proof.Tests

open Sys2Proof.Machine

/-- The next state of an outcome, if it has one. -/
def nextOf (o : Host.Outcome State Fault Refusal) : Option State :=
  match o with
  | .next t => some t
  | .fault _ => none
  | .refused _ => none

/-- The newest response after a command. -/
def answer (i : Instr) (s : State) : Option Response := (nextOf (exec i s)).bind (·.responses.head?)

/-- What a command leaves of a state, seen through `g`. -/
def left {α : Type} (g : State → α) (i : Instr) (s : State) : Option α := (nextOf (exec i s)).map g

/-- A state with the first four bytes of the buffer 00 01 02 03. -/
def bytes0123 : State := State.reset.setBuf [(1, 1), (2, 2), (3, 3)]

/-! ### Decoding: one word for each command, written out from 30_encoding.md R41 -/

theorem test_decode_nop : decode 0x000000000000#48 = .ok .nop := by decide
theorem test_decode_rdr : decode 0x011700000000#48 = .ok (.rdr 0x17) := by decide
theorem test_decode_wrr : decode 0x0200DEADBEEF#48 = .ok (.wrr 0x00 0xDEADBEEF) := by decide
theorem test_decode_ldb : decode 0x032F00000000#48 = .ok (.ldb 47) := by decide
theorem test_decode_stb : decode 0x042F000000FF#48 = .ok (.stb 47 0xFF) := by decide
theorem test_decode_ldw : decode 0x050B00000000#48 = .ok (.ldw 11) := by decide
theorem test_decode_stw : decode 0x0601A1B2C3D4#48 = .ok (.stw 1 0xA1B2C3D4) := by decide
theorem test_decode_unpack : decode 0x100000000000#48 = .ok .unpack := by decide
theorem test_decode_pack : decode 0x110000000000#48 = .ok .pack := by decide
theorem test_decode_xform : decode 0x200000000030#48 = .ok (.xform 48) := by decide
theorem test_decode_order : decode 0x300000000000#48 = .ok .order := by decide

/-- Vectors I1, I4, I7, I9, I10 and I23. -/
theorem test_decode_refuses :
    decode 0x070000000000#48 = .error .unknownOpcode ∧ decode 0x120000000000#48 = .error .unknownOpcode ∧
      decode 0x000100000000#48 = .error .reservedIdx ∧ decode 0x100000000001#48 = .error .reservedData ∧
      decode 0x200100000004#48 = .error .reservedIdx ∧ decode 0x05FF00000001#48 = .error .reservedData := by decide

/-- No two rows of the opcode table share a word. -/
theorem test_rows_disjoint :
    opcodeRows.Pairwise (fun a b => (a.pattern ^^^ b.pattern) &&& (a.mask &&& b.mask) ≠ 0) := by decide

theorem test_decodeTableWord : decodeTableWord 48 0x200000000030 = some (.xform 48) := by decide

/-! ### `wellFormed` refuses an ill-formed term for each of its checks -/

theorem smoke_rdr_no_register : Instr.wellFormed (.rdr 0x05) = false ∧ Instr.wellFormed (.rdr 0x18) = false := by decide
theorem smoke_wrr_read_only : Instr.wellFormed (.wrr 0x02 1) = false ∧ Instr.wellFormed (.wrr 0x04 0) = false := by decide
theorem smoke_wrr_no_register : Instr.wellFormed (.wrr 0x0F 0) = false := by decide
theorem smoke_wrr_too_wide : Instr.wellFormed (.wrr 0x15 32) = false ∧ Instr.wellFormed (.wrr 0x16 2) = false := by decide
theorem smoke_ldb_outside : Instr.wellFormed (.ldb 48) = false := by decide
theorem smoke_stb_outside : Instr.wellFormed (.stb 48 0) = false := by decide
theorem smoke_stb_too_wide : Instr.wellFormed (.stb 0 0x100) = false := by decide
theorem smoke_ldw_outside : Instr.wellFormed (.ldw 12) = false := by decide
theorem smoke_stw_outside : Instr.wellFormed (.stw 12 0) = false := by decide
theorem smoke_xform_unaligned : Instr.wellFormed (.xform 6) = false := by decide
theorem smoke_xform_too_long : Instr.wellFormed (.xform 52) = false := by decide

/-! ### One command on a small state -/

theorem test_nop : left id .nop bytes0123 = some (answered bytes0123 0) := by decide

/-- Vector H17: the `KEY` view. -/
theorem test_rdr_key :
    answer (.rdr 0x02) ((State.reset.setPv 0xDEADBEEF).setOtid 0xCAFEBABE) = some ⟨0, 0x14530451⟩ := by decide

/-- Vector I17: no such register. -/
theorem test_rdr_illegal : answer (.rdr 0x18) State.reset = some ⟨2, 0⟩ := by decide

/-- Vector H20. -/
theorem test_wrr_field : left (·.f) (.wrr 0x10 31) State.reset = some { Fields.zero with f0 := 31 } := by decide

/-- Vector B33: neither truncated nor spilt into `F[1]`. -/
theorem test_wrr_too_wide :
    left id (.wrr 0x10 32) (State.reset.setFields { Fields.zero with f0 := 5 }) =
      some (faulted (State.reset.setFields { Fields.zero with f0 := 5 }) 3) := by decide

theorem test_ldb : answer (.ldb 3) bytes0123 = some ⟨0, 3⟩ := by decide

/-- Vector H42: no wrap-around. -/
theorem test_ldb_range : answer (.ldb 255) bytes0123 = some ⟨3, 0⟩ := by decide

theorem test_stb_neighbours : left (·.buf) (.stb 2 0xAB) bytes0123 = some [(1, 1), (2, 0xAB), (3, 3)] := by decide

/-- A stored zero leaves no entry, and vector H44 stores nothing. -/
theorem test_stb_zero :
    left (·.buf) (.stb 2 0) bytes0123 = some [(1, 1), (3, 3)] ∧
      left (·.buf) (.stb 0 0xFFFFFFFF) bytes0123 = some bytes0123.buf := by decide

/-- The example of 40_host_access.md R55. -/
theorem test_ldw : answer (.ldw 0) bytes0123 = some ⟨0, 0x03020100⟩ := by decide

/-- Vector H43. -/
theorem test_ldw_range : answer (.ldw 255) bytes0123 = some ⟨3, 0⟩ := by decide

/-- Vector H32. -/
theorem test_stw :
    left (·.buf) (.stw 1 0xA1B2C3D4) State.reset = some [(4, 0xD4), (5, 0xC3), (6, 0xB2), (7, 0xA1)] := by decide

/-- The last word, and the first word index that faults (vector H40). -/
theorem test_stw_edge :
    left (·.buf) (.stw 11 0xFF000000) State.reset = some [(47, 0xFF)] ∧
      left (·.err) (.stw 12 0) State.reset = some 3 := by decide

/-- Vector B27. -/
theorem test_unpack :
    left (·.f) .unpack (State.reset.setIvw 0xDEADBEEF) = some ⟨15, 23, 15, 27, 10, 15, 1, 1⟩ := by decide

/-- Vectors B28 and B1. -/
theorem test_pack :
    left (·.ivw) .pack ((State.reset.setFields ⟨1, 2, 3, 4, 5, 6, 0, 1⟩).setIvw 0xFFFFFFFF) = some 0x8C520C41 ∧
      left (·.ivw) .pack (State.reset.setFields ⟨31, 31, 31, 31, 31, 31, 1, 0⟩) = some 0x7FFFFFFF := by decide

/-- Vector X10: key byte 0 lands on address 0. -/
theorem test_xform :
    left (·.buf) (.xform 4) (State.reset.setPv 0x01020304) = some [(0, 4), (1, 3), (2, 2), (3, 1)] := by decide

/-- Vectors X23 and X25: alignment is checked before range. -/
theorem test_xform_faults :
    answer (.xform 50) State.reset = some ⟨1, 0⟩ ∧ answer (.xform 52) State.reset = some ⟨3, 0⟩ := by decide

/-- Vectors O8, O10 and O11, with the default table named. -/
theorem test_order_default_table :
    orderData defaultOrderTable 100 = 0x0000049C ∧ orderData defaultOrderTable 0x80000000 = 0x000008C9 ∧
      orderData defaultOrderTable 0xFFFFFFFF = 0x00000F36 := by decide

/-- Vectors E1 and E2: the first cause sticks. -/
theorem test_first_cause_sticks :
    left (·.err) (.xform 6) State.reset = some 1 ∧
      left (·.err) (.ldb 48) (raiseFault .align State.reset) = some 1 := by decide

/-! ### Steps -/

/-- A step takes the issued word, and the port is as before. -/
theorem test_step_runs_the_word :
    nextOf (step (State.reset.withFetchWord 48 0x0201000000C8)) = some (answered (State.reset.setOtid 200) 0) := by decide

/-- Vector I19: a command word that is none of the block's. -/
theorem test_step_illegal :
    nextOf (step (State.reset.withFetchWord 48 0x000000000001)) = some (faulted State.reset 2) := by decide

/-- Vector E5: reset clears `ERR` and everything else. -/
theorem test_step_reset : nextOf (step ((raiseFault .range bytes0123).withPort [.reset])) = some State.reset := by decide

/-! ### Listings (30_encoding.md R47) -/

theorem test_listing_examples :
    assembleLine "WRR PV, 100".toList = some [.wrr 0x00 100] ∧ assembleLine "LDW 11 ; last word".toList = some [.ldw 11] ∧
      assembleLine "WRR SPA, 0x1F".toList = some [.wrr 0x14 31] ∧
      assembleLine "SETID 25, 0xFFFF".toList = some [.wrr 0x00 25, .wrr 0x01 0xFFFF] := by decide

theorem test_listing_refuses :
    assembleLine "LDB 256".toList = none ∧ assembleLine "NOP 1".toList = none ∧ assembleLine "MOV 1, 2".toList = none := by
  decide

/-- The literals of log entry 17: a separator between digits, and literals that are no number. -/
theorem test_number_literals :
    parseNumber "0x7FFF_FFFF".toList = some 0x7FFFFFFF ∧ parseNumber "0".toList = some 0 ∧
      parseNumber "0x".toList = none ∧ parseNumber "0x_".toList = none ∧ parseNumber "0x_1".toList = none ∧
      parseNumber "_1".toList = none ∧ parseNumber "0xG".toList = none ∧ parseNumber "".toList = none := by decide

/-! ### Witnesses: each statement with hypotheses has a state and operands that meet them all -/

/-- A canonical buffer that is not empty, for every statement that asks for one. -/
theorem witness_canonical_buffer : Buffer.wf bytes0123.buf := by decide

theorem witness_ResetEvent :
    (State.reset.withPort [.reset, .command 0]).port = .reset :: [.command 0] ∧
      (State.reset.withPort [.issueThenReset 5]).port = .issueThenReset 5 :: [] := by decide

/-- Reserved fields that are not zero, each alone (R50, R61, R62, R75; R51, R53, R55; R67). -/
theorem witness_reserved_fields :
    ((1 : Index) ≠ 0 ∨ (0 : Word) ≠ 0) ∧ ((0 : Index) ≠ 0 ∨ (1 : Word) ≠ 0) ∧ (1 : Word) ≠ 0 ∧ (1 : Index) ≠ 0 := by decide

/-- Indices that name no register, at each edge of the map. -/
theorem witness_Rdr_no_register :
    ∀ r ∈ [(0x05 : Index), 0x0F, 0x18, 0xFF], ¬(r.toNat ≤ 0x04 ∨ (0x10 ≤ r.toNat ∧ r.toNat ≤ 0x17)) := by decide

/-- Indices that `WRR` refuses: the two read-only ones, and each edge of the map. -/
theorem witness_Wrr_refused :
    ∀ r ∈ [(0x02 : Index), 0x04, 0x05, 0x0F, 0x18, 0xFF],
      r.toNat ∉ [0x00, 0x01, 0x03, 0x10, 0x11, 0x12, 0x13, 0x14, 0x15, 0x16, 0x17] := by decide

/-- Values at both sides of a field's bound. -/
theorem witness_Wrr_bounds : (31 : Word).toNat ≤ 31 ∧ ¬(32 : Word).toNat ≤ 31 ∧ (1 : Word).toNat ≤ 1 ∧ ¬(2 : Word).toNat ≤ 1 := by
  decide

/-- Byte addresses and word indices at both sides of the bound. -/
theorem witness_addresses :
    (47 : Index).toNat < 48 ∧ ¬(48 : Index).toNat < 48 ∧ (11 : Index).toNat < 12 ∧ ¬(12 : Index).toNat < 12 := by decide

theorem witness_Stb :
    Buffer.wf bytes0123.buf ∧ (47 : Index).toNat < 48 ∧ (0xFF : Word).toNat ≤ 0xFF ∧ ¬(0x100 : Word).toNat ≤ 0xFF := by decide

theorem witness_Stw_then_load : Buffer.wf bytes0123.buf ∧ (11 : Index).toNat < 12 := by decide

/-- A length in each branch of `XFORM`: unaligned, aligned and too long, the greatest legal one. -/
theorem witness_Xform_branches :
    (50 : Word).toNat % 4 ≠ 0 ∧ (52 : Word).toNat % 4 = 0 ∧ 48 < (52 : Word).toNat ∧ (48 : Word).toNat % 4 = 0 ∧
      ¬48 < (48 : Word).toNat := by decide

theorem witness_Xform_completes :
    Buffer.wf bytes0123.buf ∧ (48 : Word).toNat % 4 = 0 ∧ (48 : Word).toNat ≤ 48 ∧ 44 < (48 : Word).toNat := by decide

/-- The second clause of the involution: other registers, the same key. -/
theorem witness_XformIsAnInvolution_same_key : (200 : Word) ^^^ 100 = 100 ^^^ 200 := by decide

/-- Two different states with the same key and the same word 0, both of which complete `XFORM 8`. -/
theorem witness_XformLanes :
    Buffer.wf bytes0123.buf ∧ Buffer.wf (bytes0123.setBuf [(1, 1), (2, 2), (3, 3), (4, 9)]).buf ∧
      4 * 0 < (8 : Word).toNat ∧ bytes0123.otid ^^^ bytes0123.pv = bytes0123.otid ^^^ bytes0123.pv ∧
      readWord bytes0123.buf (4 * 0) = readWord (bytes0123.setBuf [(1, 1), (2, 2), (3, 3), (4, 9)]).buf (4 * 0) ∧
      (nextOf (exec (.xform 8) bytes0123)).isSome = true ∧
      (nextOf (exec (.xform 8) (bytes0123.setBuf [(1, 1), (2, 2), (3, 3), (4, 9)]))).isSome = true := by decide

/-- A bit outside field 1, below it and above it. -/
theorem witness_BitContainer_lanes :
    ¬(fieldOffset 1 ≤ 4 ∧ 4 < fieldOffset 1 + fieldWidth 1) ∧
      ¬(fieldOffset 1 ≤ 10 ∧ 10 < fieldOffset 1 + fieldWidth 1) := by decide

/-- Two values of `PV` that agree modulo 24. -/
theorem witness_OrderResponse : (State.reset.setPv 47).pv.toNat % 24 = (State.reset.setPv 23).pv.toNat % 24 := by decide

theorem witness_DefaultTable : defaultOrderTable 5 = defaultOrderTable 5 := by decide

theorem witness_EncodeOfDecode : decode 0x021000000020#48 = .ok (.wrr 0x10 32) := by decide

theorem witness_NonCommandWords :
    (State.reset.withPort [.command 0x210000000000#48]).port = .command 0x210000000000#48 :: [] ∧
      ∀ row ∈ opcodeRows, (0x210000000000#48) &&& row.mask ≠ row.pattern := by decide

/-- Both cases of the check order: a word that fails a check, and one that fails none. -/
theorem witness_FirstFailingCheck : checkOrder 0x20 0 50 = 1 ∧ checkOrder 0x20 0 48 = 0 := by decide

theorem witness_ErrIsSticky :
    (raiseFault .align State.reset).err ≠ 0 ∧ (nextOf (step (raiseFault .align State.reset))).isSome = true := by decide

theorem witness_ErrMasksNothing : Instr.rdr 0x03 ≠ .rdr 0x04 := by decide

/-- A state that meets the invariant with a fault behind it, and one without. -/
theorem witness_Inv : State.Inv (raiseFault .range bytes0123) ∧ State.Inv (bytes0123.respond 7) := by decide

theorem witness_StepRuns :
    (State.reset.withPort [.command 0x050B00000000#48]).port = .command 0x050B00000000#48 :: [] ∧
      decode 0x050B00000000#48 = .ok (.ldw 11) := by decide

theorem witness_IdleBlock : bytes0123.port = [] := by decide

/-- A host that issues one word, and a state in which nothing is issued. -/
theorem witness_AdaptiveRun :
    bytes0123.port = [] ∧
      (nextOf (runHost (fun rs => if rs = [] then some 0 else none) 2 bytes0123)).map (·.responses) = some [⟨0, 0⟩] := by
  decide

theorem witness_NoHiddenState : sameBlock bytes0123 (bytes0123.respond 7) := by decide

/-- A canonical buffer and a next state for each clause: a fault that sets `ERR`, a register, a field register beside
another, and a store of each kind with a byte next to it, at both sides, that it does not store. -/
theorem witness_CommandsWriteOnlyTheirRow :
    Buffer.wf bytes0123.buf ∧ left (·.err) (.rdr 0x05) State.reset = some 2 ∧ left (·.pv) (.wrr 0x00 9) State.reset = some 9 ∧
      (left (·.f) (.wrr 0x17 1) State.reset).isSome = true ∧ (0x17 : Index).toNat ≠ 0x10 + (6 : Fin 8).val ∧
      (nextOf (exec (.stb 2 9) bytes0123)).isSome = true ∧ 1 ≠ (2 : Index).toNat ∧ 3 ≠ (2 : Index).toNat ∧
      (nextOf (exec (.stw 1 9) bytes0123)).isSome = true ∧ 3 < 4 * (1 : Index).toNat ∧ 4 * (1 : Index).toNat + 3 < 8 ∧
      (nextOf (exec (.xform 4) bytes0123)).isSome = true ∧ (4 : Word).toNat ≤ 4 := by decide

theorem witness_RdrAfterWrr :
    Index.writable 0x17 = true ∧ Index.fits 0x17 1 = true ∧ Index.writable 0x10 = true ∧ Index.fits 0x10 31 = true := by
  decide

/-- A step from a state that meets the invariant, with a command that faults. -/
theorem witness_StepKeepsInv :
    State.Inv (bytes0123.withPort [.command 0x200000000006#48]) ∧
      (nextOf (step (bytes0123.withPort [.command 0x200000000006#48]))).isSome = true := by decide

end Sys2Proof.Tests
end

section
/-! SUPPORT. What a step does with each event of the port, said once (spec/00_scope.md R4, spec/60_exceptions.md R90,
spec/70_reset_and_hazards.md R91). -/

namespace Sys2Proof.Machine

variable {s : State} {cw : CommandWord} {rest : List HostEvent}

theorem step_of_idle (h : s.port = []) : step s = .next s := by
  simp only [step, h]

theorem step_of_command (h : s.port = .command cw :: rest) : step s = executeWord cw (s.withPort rest) := by
  simp only [step, h]

theorem step_of_reset (h : s.port = .reset :: rest) : step s = .next (resetBlock (s.withPort rest)) := by
  simp only [step, h]

theorem step_of_issueThenReset (h : s.port = .issueThenReset cw :: rest) :
    step s = .next (resetBlock (s.withPort rest)) := by
  simp only [step, h]

theorem executeWord_of_decode_ok {i : Instr} (h : decode cw = .ok i) : executeWord cw s = exec i s := by
  simp only [executeWord, h]

theorem executeWord_of_decode_error {e : DecodeError} (h : decode cw = .error e) :
    executeWord cw s = takeFault .illegal s := by
  simp only [executeWord, h, rejectCause_eq]

end Sys2Proof.Machine
end

section
/-! SUPPORT. The two ports play no part in a command: whatever they hold, the command leaves the same block and adds the
same response (spec/00_scope.md R5). -/

namespace Sys2Proof.Machine

/-- The block of `s` between other ports. -/
def State.withPorts (s : State) (p : List HostEvent) (rs : List Response) : State :=
  { s with port := p, responses := rs }

section
variable (s : State) (p : List HostEvent) (rs : List Response)

@[simp] theorem withPorts_pv : (s.withPorts p rs).pv = s.pv := rfl
@[simp] theorem withPorts_otid : (s.withPorts p rs).otid = s.otid := rfl
@[simp] theorem withPorts_ivw : (s.withPorts p rs).ivw = s.ivw := rfl
@[simp] theorem withPorts_err : (s.withPorts p rs).err = s.err := rfl
@[simp] theorem withPorts_f : (s.withPorts p rs).f = s.f := rfl
@[simp] theorem withPorts_buf : (s.withPorts p rs).buf = s.buf := rfl
@[simp] theorem withPorts_port : (s.withPorts p rs).port = p := rfl
@[simp] theorem withPorts_responses : (s.withPorts p rs).responses = rs := rfl
@[simp] theorem withPorts_key : (s.withPorts p rs).key = s.key := rfl

@[simp] theorem withPorts_setIvw (v : Word) : (s.withPorts p rs).setIvw v = (s.setIvw v).withPorts p rs := rfl
@[simp] theorem withPorts_setFields (v : Fields) :
    (s.withPorts p rs).setFields v = (s.setFields v).withPorts p rs := rfl
@[simp] theorem withPorts_setBuf (m : Buffer) : (s.withPorts p rs).setBuf m = (s.setBuf m).withPorts p rs := rfl

/-- Every state is its own block between its own ports. -/
theorem withPorts_self : s.withPorts s.port s.responses = s := rfl

theorem sameBlock_withPorts (p' : List HostEvent) (rs' : List Response) :
    sameBlock (s.withPorts p rs) (s.withPorts p' rs') := ⟨rfl, rfl, rfl, rfl, rfl, rfl⟩

theorem readReg_withPorts (r : Reg) : readReg (s.withPorts p rs) r = readReg s r := by
  cases r <;> rfl

theorem writeReg_withPorts (r : Reg) (d : Word) :
    writeReg (s.withPorts p rs) r d = (writeReg s r d).map (·.withPorts p rs) := by
  cases r with
  | field i =>
    simp only [writeReg, withPorts_f, withPorts_setFields]
    split <;> rfl
  | _ => rfl

end

/-- States of the same block differ in their ports only. -/
theorem eq_withPorts_of_sameBlock {s t : State} (h : sameBlock s t) : t = s.withPorts t.port t.responses := by
  obtain ⟨hpv, hotid, hivw, herr, hf, hbuf⟩ := h
  rw [State.withPorts, hpv, hotid, hivw, herr, hf, hbuf]

/-- From the block of `s` the meaning `f` answers one block and one new response, the same between all ports, and takes
nothing from the command port. -/
def AnswersFromBlock (f : State → Host.Outcome State Fault Refusal) (s : State) : Prop :=
  ∃ (u : State) (r : Response), ∀ p rs, f (s.withPorts p rs) = .next (u.withPorts p (r :: rs))

variable {f : State → Host.Outcome State Fault Refusal} {s : State}

theorem AnswersFromBlock.of_complete (v : Word) (u : State)
    (h : ∀ p rs, f (s.withPorts p rs) = complete v (u.withPorts p rs)) : AnswersFromBlock f s :=
  ⟨u, ⟨0, v⟩, h⟩

theorem AnswersFromBlock.of_takeFault (c : Cause)
    (h : ∀ p rs, f (s.withPorts p rs) = takeFault c (s.withPorts p rs)) : AnswersFromBlock f s :=
  ⟨raiseFault c s, ⟨causeCode c, 0⟩, h⟩

/-- What such a meaning does to a state with its own ports: it adds one response and leaves the command port. -/
theorem AnswersFromBlock.answers_once (h : AnswersFromBlock f s) :
    ∃ t r, f s = .next t ∧ t.port = s.port ∧ t.responses = r :: s.responses := by
  obtain ⟨u, r, hf⟩ := h
  have hs : f s = .next (u.withPorts s.port (r :: s.responses)) := by
    rw [← hf, withPorts_self]
  exact ⟨_, r, hs, withPorts_port .., withPorts_responses ..⟩

/-- What such a meaning does to two states of the same block: the same response, and the same block after it. -/
theorem AnswersFromBlock.same_of_sameBlock (h : AnswersFromBlock f s) {t : State} (hst : sameBlock s t) :
    ∃ s' t' r, f s = .next s' ∧ f t = .next t' ∧ sameBlock s' t' ∧
      s'.responses = r :: s.responses ∧ t'.responses = r :: t.responses := by
  obtain ⟨u, r, hf⟩ := h
  have hs : f s = .next (u.withPorts s.port (r :: s.responses)) := by
    rw [← hf, withPorts_self]
  have ht : f t = .next (u.withPorts t.port (r :: t.responses)) := by
    rw [← hf, ← eq_withPorts_of_sameBlock hst]
  exact ⟨_, _, r, hs, ht, sameBlock_withPorts .., withPorts_responses .., withPorts_responses ..⟩

/-! ### The eleven commands -/

variable (s)

theorem execNop_answersFromBlock : AnswersFromBlock execNop s :=
  .of_complete 0 s fun _ _ => rfl

theorem execRdr_answersFromBlock (r : Index) : AnswersFromBlock (execRdr r) s := by
  cases hr : regOf r with
  | some reg => exact .of_complete (readReg s reg) s fun p rs => by simp only [execRdr, hr, readReg_withPorts]
  | none => exact .of_takeFault .illegal fun p rs => by simp only [execRdr, hr]

theorem execWrr_answersFromBlock (r : Index) (d : Word) : AnswersFromBlock (execWrr r d) s := by
  cases hr : regOf r with
  | none => exact .of_takeFault .illegal fun p rs => by simp only [execWrr, hr]
  | some reg =>
    cases hw : writeReg s reg d with
    | ok t => exact .of_complete 0 t fun p rs => by simp only [execWrr, hr, writeReg_withPorts, hw, Except.map]
    | error c => exact .of_takeFault c fun p rs => by simp only [execWrr, hr, writeReg_withPorts, hw, Except.map]

theorem execLdb_answersFromBlock (a : Index) : AnswersFromBlock (execLdb a) s := by
  cases ha : byteAddress a with
  | ok addr =>
    exact .of_complete ((readByte s.buf addr).setWidth 32) s fun p rs => by simp only [execLdb, ha, withPorts_buf]
  | error c => exact .of_takeFault c fun p rs => by simp only [execLdb, ha]

theorem execStb_answersFromBlock (a : Index) (d : Word) : AnswersFromBlock (execStb a d) s := by
  cases ha : byteAddress a with
  | error c => exact .of_takeFault c fun p rs => by simp only [execStb, ha]
  | ok addr =>
    cases hd : byteOperand d with
    | ok b =>
      exact .of_complete 0 (s.setBuf (writeByte s.buf addr b)) fun p rs => by
        simp only [execStb, ha, hd, withPorts_buf, withPorts_setBuf]
    | error c => exact .of_takeFault c fun p rs => by simp only [execStb, ha, hd]

theorem execLdw_answersFromBlock (n : Index) : AnswersFromBlock (execLdw n) s := by
  cases hn : wordAddress n with
  | ok addr => exact .of_complete (readWord s.buf addr) s fun p rs => by simp only [execLdw, hn, withPorts_buf]
  | error c => exact .of_takeFault c fun p rs => by simp only [execLdw, hn]

theorem execStw_answersFromBlock (n : Index) (d : Word) : AnswersFromBlock (execStw n d) s := by
  cases hn : wordAddress n with
  | ok addr =>
    exact .of_complete 0 (s.setBuf (writeWord s.buf addr d)) fun p rs => by
      simp only [execStw, hn, withPorts_buf, withPorts_setBuf]
  | error c => exact .of_takeFault c fun p rs => by simp only [execStw, hn]

theorem execUnpack_answersFromBlock : AnswersFromBlock execUnpack s :=
  .of_complete 0 (s.setFields (bitDecode s.ivw)) fun p rs => by
    simp only [execUnpack, withPorts_ivw, withPorts_setFields]

theorem execPack_answersFromBlock : AnswersFromBlock execPack s :=
  .of_complete 0 (s.setIvw (bitEncode s.f)) fun p rs => by simp only [execPack, withPorts_f, withPorts_setIvw]

theorem execXform_answersFromBlock (n : Word) : AnswersFromBlock (execXform n) s := by
  cases hn : transformLength n with
  | ok count =>
    exact .of_complete 0 (s.setBuf (xformWords s.key count s.buf)) fun p rs => by
      simp only [execXform, hn, withPorts_key, withPorts_buf, withPorts_setBuf]
  | error c => exact .of_takeFault c fun p rs => by simp only [execXform, hn]

theorem execOrder_answersFromBlock : AnswersFromBlock execOrder s :=
  .of_complete (orderData Config.orderTable s.pv) s fun p rs => by simp only [execOrder, withPorts_pv]

theorem exec_answersFromBlock (i : Instr) : AnswersFromBlock (exec i) s := by
  cases i with
  | nop => exact execNop_answersFromBlock s
  | rdr r => exact execRdr_answersFromBlock s r
  | wrr r d => exact execWrr_answersFromBlock s r d
  | ldb a => exact execLdb_answersFromBlock s a
  | stb a d => exact execStb_answersFromBlock s a d
  | ldw n => exact execLdw_answersFromBlock s n
  | stw n d => exact execStw_answersFromBlock s n d
  | unpack => exact execUnpack_answersFromBlock s
  | pack => exact execPack_answersFromBlock s
  | xform n => exact execXform_answersFromBlock s n
  | order => exact execOrder_answersFromBlock s

/-- A word that is no command is answered from the block too, with `E_ILLEGAL` (30_encoding.md R45). -/
theorem executeWord_answersFromBlock (cw : CommandWord) : AnswersFromBlock (executeWord cw) s := by
  cases hd : decode cw with
  | ok i =>
    obtain ⟨u, r, hi⟩ := exec_answersFromBlock s i
    exact ⟨u, r, fun p rs => (executeWord_of_decode_ok hd).trans (hi p rs)⟩
  | error e => exact .of_takeFault .illegal fun p rs => executeWord_of_decode_error hd

end Sys2Proof.Machine
end

section
/-! The statements of spec/00_scope.md: a step is the decoded command, each command is answered once, from the block
alone. -/

namespace Sys2Proof.Machine

/-- Settles O37: the command event leads `step` to `executeWord`, and the decoded word to `exec`. -/
theorem stepRunsTheDecodedCommand : Obligations.StepRunsTheDecodedCommand := by
  intro s cw rest i hport hdecode
  calc step s = executeWord cw (s.withPort rest) := step_of_command hport
    _ = exec i (s.withPort rest) := executeWord_of_decode_ok hdecode

/-- Settles O39, by the first event of the port; a command word is answered by `executeWord_answersFromBlock`. -/
theorem everyCommandIsAnsweredOnce : Obligations.EveryCommandIsAnsweredOnce := by
  intro s
  cases hport : s.port with
  | nil => exact ⟨s, step_of_idle hport, hport, by simp⟩
  | cons event rest =>
    cases event with
    | command cw =>
      obtain ⟨t, r, hexec, htport, hresponses⟩ := (executeWord_answersFromBlock (s.withPort rest) cw).answers_once
      exact ⟨t, (step_of_command hport).trans hexec, htport, fun _ _ _ => ⟨r, hresponses⟩⟩
    | reset => exact ⟨_, step_of_reset hport, rfl, by simp⟩
    | issueThenReset cw => exact ⟨_, step_of_issueThenReset hport, rfl, by simp⟩

/-- Settles O42: `executeWord` answers from the block, so states of the same block are answered alike. -/
theorem noHiddenStateInfluencesACommand : Obligations.NoHiddenStateInfluencesACommand :=
  fun cw s _ hst => (executeWord_answersFromBlock s cw).same_of_sameBlock hst

end Sys2Proof.Machine
end

section
/-! SUPPORT. The registers and their indices (spec/10_state.md R18), and `RDR` and `WRR` of a register. -/

namespace Sys2Proof.Machine

/-- The index at which the map of 10_state.md R18 has a register; `regOf` is its inverse. -/
def Reg.index : Reg → Index
  | .pv => 0x00
  | .otid => 0x01
  | .key => 0x02
  | .ivw => 0x03
  | .err => 0x04
  | .field i => BitVec.ofNat 8 (0x10 + i.val)

@[simp] theorem regOf_index (reg : Reg) : regOf reg.index = some reg := by
  cases reg with
  | field i => revert i; decide
  | _ => rfl

theorem eq_index_of_regOf {r : Index} {reg : Reg} (h : regOf r = some reg) : r = reg.index := by
  have hmap : ∀ r : Index, ∀ reg ∈ regOf r, r = reg.index := by decide
  exact hmap r reg h

@[simp] theorem index_field_toNat (j : Fin 8) : (Reg.field j).index.toNat = 0x10 + j.val := by
  revert j
  decide

@[simp] theorem readable_index (reg : Reg) : Index.readable reg.index = true := by
  rw [← regOf_isSome, regOf_index]
  rfl

@[simp] theorem writable_index_field (j : Fin 8) : Index.writable (Reg.field j).index = true := by
  revert j
  decide

/-- A value fits the index of a field register exactly if it fits the register. -/
@[simp] theorem fits_index_field (j : Fin 8) (d : Word) :
    Index.fits (Reg.field j).index d = decide (d.toNat < 2 ^ fieldWidth j) := by
  fin_cases j <;> simp [Index.fits, Reg.index, fieldWidth, Nat.lt_succ_iff]

section
variable {s t : State} {r : Index} {reg : Reg} {d : Word} {c : Cause}

theorem execRdr_of_regOf (h : regOf r = some reg) : execRdr r s = complete (readReg s reg) s := by
  simp only [execRdr, h]

theorem execRdr_of_noReg (h : regOf r = none) : execRdr r s = takeFault .illegal s := by
  simp only [execRdr, h]

theorem execWrr_of_ok (h : regOf r = some reg) (hw : writeReg s reg d = .ok t) : execWrr r d s = complete 0 t := by
  simp only [execWrr, h, hw]

theorem execWrr_of_error (h : regOf r = some reg) (hw : writeReg s reg d = .error c) :
    execWrr r d s = takeFault c s := by
  simp only [execWrr, h, hw]

theorem execWrr_of_noReg (h : regOf r = none) : execWrr r d s = takeFault .illegal s := by
  simp only [execWrr, h]

end

section
variable (s : State) (d : Word)

theorem exec_rdr_index (reg : Reg) {v : Word} (h : readReg s reg = v) :
    exec (.rdr reg.index) s = .next (s.respond v) :=
  h ▸ execRdr_of_regOf (regOf_index reg)

theorem exec_wrr_pv : exec (.wrr 0x00 d) s = .next ((s.setPv d).respond 0) :=
  execWrr_of_ok (regOf_index .pv) rfl

theorem exec_wrr_otid : exec (.wrr 0x01 d) s = .next ((s.setOtid d).respond 0) :=
  execWrr_of_ok (regOf_index .otid) rfl

theorem exec_wrr_key : exec (.wrr 0x02 d) s = .next (raiseFault .illegal s) :=
  execWrr_of_error (d := d) (regOf_index .key) rfl

end

end Sys2Proof.Machine
end

section
/-! SUPPORT. How a command ends, said once for all eleven: it completes as its row of the access table (spec/10_state.md
R19) says, or its operands are not legal and the fault entry is all that happens. -/

namespace Sys2Proof.Machine

/-- `Completes s i v u`: the operands of `i` are legal, the response data is `v`, and `u` is `s` with what `i` writes
before the response is delivered. -/
inductive Completes (s : State) : Instr → Word → State → Prop where
  | nop : Completes s .nop 0 s
  | rdr (reg : Reg) : Completes s (.rdr reg.index) (readReg s reg) s
  | wrrPv (d : Word) : Completes s (.wrr 0x00 d) 0 (s.setPv d)
  | wrrOtid (d : Word) : Completes s (.wrr 0x01 d) 0 (s.setOtid d)
  | wrrIvw (d : Word) : Completes s (.wrr 0x03 d) 0 (s.setIvw d)
  | wrrField {j : Fin 8} {d : Word} (hd : d.toNat < 2 ^ fieldWidth j) :
      Completes s (.wrr (Reg.field j).index d) 0 (s.setFields (setField s.f j d))
  | ldb {a : Index} (ha : a.toNat < Config.bufBytes) :
      Completes s (.ldb a) ((readByte s.buf a.toNat).setWidth 32) s
  | stb {a : Index} {d : Word} (ha : a.toNat < Config.bufBytes) (hd : d.toNat ≤ 0xFF) :
      Completes s (.stb a d) 0 (s.setBuf (writeByte s.buf a.toNat (d.setWidth 8)))
  | ldw {n : Index} (hn : n.toNat < Config.bufBytes / 4) : Completes s (.ldw n) (readWord s.buf (4 * n.toNat)) s
  | stw {n : Index} {d : Word} (hn : n.toNat < Config.bufBytes / 4) :
      Completes s (.stw n d) 0 (s.setBuf (writeWord s.buf (4 * n.toNat) d))
  | unpack : Completes s .unpack 0 (s.setFields (bitDecode s.ivw))
  | pack : Completes s .pack 0 (s.setIvw (bitEncode s.f))
  | xform {n : Word} (hmod : n.toNat % 4 = 0) (hle : n.toNat ≤ Config.bufBytes) :
      Completes s (.xform n) 0 (s.setBuf (xformWords s.key (n.toNat / 4) s.buf))
  | order : Completes s .order (orderData Config.orderTable s.pv) s

/-- The two ways in which the command `i` can end from `s`. -/
inductive Ends (s : State) (i : Instr) : Host.Outcome State Fault Refusal → Prop where
  | completes {v : Word} {u : State} (h : Completes s i v u) : Ends s i (complete v u)
  | faults (c : Cause) (h : i.wellFormed = false) : Ends s i (takeFault c s)

theorem transformLength_eq (n : Word) :
    transformLength n =
      if n.toNat % 4 ≠ 0 then .error .align else if n.toNat ≤ Config.bufBytes then .ok (n.toNat / 4)
      else .error .range := rfl

section
variable (s : State)

theorem execRdr_ends (r : Index) : Ends s (.rdr r) (execRdr r s) := by
  cases hr : regOf r with
  | some reg =>
    rw [execRdr_of_regOf hr, eq_index_of_regOf hr]
    exact .completes (.rdr reg)
  | none =>
    rw [execRdr_of_noReg hr]
    exact .faults _ (by simp [Instr.wellFormed, ← regOf_isSome, hr])

theorem execWrr_ends (r : Index) (d : Word) : Ends s (.wrr r d) (execWrr r d s) := by
  cases hr : regOf r with
  | none =>
    rw [execWrr_of_noReg hr]
    exact .faults _ (by simp [Instr.wellFormed, Index.writable, ← regOf_isSome, hr])
  | some reg =>
    obtain rfl := eq_index_of_regOf hr
    cases reg with
    | pv => exact .completes (.wrrPv d)
    | otid => exact .completes (.wrrOtid d)
    | key => exact .faults .illegal rfl
    | ivw => exact .completes (.wrrIvw d)
    | err => exact .faults .illegal rfl
    | field j =>
      by_cases hd : d.toNat < 2 ^ fieldWidth j
      · rw [execWrr_of_ok hr (if_pos hd)]
        exact .completes (.wrrField hd)
      · rw [execWrr_of_error hr (if_neg hd)]
        exact .faults _ (by simp [Instr.wellFormed, hd])

theorem execLdb_ends (a : Index) : Ends s (.ldb a) (execLdb a s) := by
  by_cases ha : a.toNat < Config.bufBytes
  · simp only [execLdb, byteAddress_eq, if_pos ha]
    exact .completes (.ldb ha)
  · simp only [execLdb, byteAddress_eq, if_neg ha]
    exact .faults _ (decide_eq_false ha)

theorem execStb_ends (a : Index) (d : Word) : Ends s (.stb a d) (execStb a d s) := by
  by_cases ha : a.toNat < Config.bufBytes
  · by_cases hd : d.toNat ≤ 0xFF
    · simp only [execStb, byteAddress_eq, byteOperand_eq, if_pos ha, if_pos hd]
      exact .completes (.stb ha hd)
    · simp only [execStb, byteAddress_eq, byteOperand_eq, if_pos ha, if_neg hd]
      exact .faults _ (by simp [Instr.wellFormed, hd])
  · simp only [execStb, byteAddress_eq, if_neg ha]
    exact .faults _ (by simp [Instr.wellFormed, ha])

theorem execLdw_ends (n : Index) : Ends s (.ldw n) (execLdw n s) := by
  by_cases hn : n.toNat < Config.bufBytes / 4
  · simp only [execLdw, wordAddress_eq, if_pos hn]
    exact .completes (.ldw hn)
  · simp only [execLdw, wordAddress_eq, if_neg hn]
    exact .faults _ (decide_eq_false hn)

theorem execStw_ends (n : Index) (d : Word) : Ends s (.stw n d) (execStw n d s) := by
  by_cases hn : n.toNat < Config.bufBytes / 4
  · simp only [execStw, wordAddress_eq, if_pos hn]
    exact .completes (.stw hn)
  · simp only [execStw, wordAddress_eq, if_neg hn]
    exact .faults _ (decide_eq_false hn)

theorem execXform_ends (n : Word) : Ends s (.xform n) (execXform n s) := by
  by_cases hmod : n.toNat % 4 = 0
  · by_cases hle : n.toNat ≤ Config.bufBytes
    · simp only [execXform, transformLength_eq, if_neg (not_not.2 hmod), if_pos hle]
      exact .completes (.xform hmod hle)
    · simp only [execXform, transformLength_eq, if_neg (not_not.2 hmod), if_neg hle]
      exact .faults _ (by simp [Instr.wellFormed, hle])
  · simp only [execXform, transformLength_eq, if_pos hmod]
    exact .faults _ (by simp [Instr.wellFormed, hmod])

theorem exec_ends (i : Instr) : Ends s i (exec i s) := by
  cases i with
  | nop => exact .completes .nop
  | rdr r => exact execRdr_ends s r
  | wrr r d => exact execWrr_ends s r d
  | ldb a => exact execLdb_ends s a
  | stb a d => exact execStb_ends s a d
  | ldw n => exact execLdw_ends s n
  | stw n d => exact execStw_ends s n d
  | unpack => exact .completes .unpack
  | pack => exact .completes .pack
  | xform n => exact execXform_ends s n
  | order => exact .completes .order

end

section
variable {s t u : State} {i : Instr} {v : Word}

/-- If a command answers `t`, it completed, or its operands are not legal and it took the fault entry. -/
theorem exec_cases (h : exec i s = .next t) :
    (∃ v u, Completes s i v u ∧ t = u.respond v) ∨ (i.wellFormed = false ∧ ∃ c, t = raiseFault c s) := by
  have hends := exec_ends s i
  rw [h] at hends
  cases hends with
  | completes hc => exact .inl ⟨_, _, hc, rfl⟩
  | faults c hw => exact .inr ⟨hw, c, rfl⟩

/-- A command with legal operands completes. -/
theorem exec_of_wellFormed (s : State) (h : i.wellFormed = true) :
    ∃ v u, Completes s i v u ∧ exec i s = .next (u.respond v) := by
  have hends := exec_ends s i
  generalize exec i s = o at hends ⊢
  cases hends with
  | completes hc => exact ⟨_, _, hc, rfl⟩
  | faults c hw => exact absurd (h.symm.trans hw) (by decide)

/-- A command completes with legal operands only. -/
theorem Completes.wellFormed (h : Completes s i v u) : i.wellFormed = true := by
  cases h with
  | rdr reg => exact readable_index reg
  | wrrField hd => simp [Instr.wellFormed, hd]
  | ldb ha => exact decide_eq_true ha
  | stb ha hd => simp [Instr.wellFormed, ha, hd]
  | ldw hn => exact decide_eq_true hn
  | stw hn => exact decide_eq_true hn
  | xform hmod hle => simp [Instr.wellFormed, hmod, hle]
  | _ => rfl

/-- A fault changes `ERR` only from 0 (60_exceptions.md R85). -/
theorem err_zero_of_latchErr_ne {e : BitVec 4} {c : Cause} (h : latchErr e c ≠ e) : e = 0 := by
  by_contra he
  exact h (if_neg he)

/-! ### What a completing command leaves unchanged -/

theorem Completes.err_eq (h : Completes s i v u) : u.err = s.err := by cases h <;> rfl

theorem Completes.port_eq (h : Completes s i v u) : u.port = s.port := by cases h <;> rfl

theorem Completes.responses_eq (h : Completes s i v u) : u.responses = s.responses := by cases h <;> rfl

theorem Completes.wf_buf (h : Completes s i v u) (hm : Buffer.wf s.buf) : Buffer.wf u.buf := by
  cases h with
  | stb ha hd => exact wf_writeByte hm ha _
  | stw hn => exact wf_writeWord hm (by simp only [Config.bufBytes] at *; omega) _
  | xform hmod hle => exact wf_xformWords hm _ (by omega)
  | _ => exact hm

theorem Completes.pv_row (h : Completes s i v u) (hne : u.pv ≠ s.pv) : ∃ d, i = .wrr 0x00 d := by
  cases h with
  | wrrPv d => exact ⟨d, rfl⟩
  | _ => exact absurd rfl hne

theorem Completes.otid_row (h : Completes s i v u) (hne : u.otid ≠ s.otid) : ∃ d, i = .wrr 0x01 d := by
  cases h with
  | wrrOtid d => exact ⟨d, rfl⟩
  | _ => exact absurd rfl hne

theorem Completes.ivw_row (h : Completes s i v u) (hne : u.ivw ≠ s.ivw) : i = .pack ∨ ∃ d, i = .wrr 0x03 d := by
  cases h with
  | pack => exact .inl rfl
  | wrrIvw d => exact .inr ⟨d, rfl⟩
  | _ => exact absurd rfl hne

theorem Completes.f_row (h : Completes s i v u) (hne : u.f ≠ s.f) :
    i = .unpack ∨ ∃ r d, i = .wrr r d ∧ 0x10 ≤ r.toNat ∧ r.toNat ≤ 0x17 := by
  cases h with
  | unpack => exact .inl rfl
  | @wrrField j d hd =>
    have hj := index_field_toNat j
    exact .inr ⟨_, d, rfl, by omega, by omega⟩
  | _ => exact absurd rfl hne

/-- `WRR` of a field index leaves the other seven field registers, and `WRR` of another index all eight. -/
theorem Completes.field_of_wrr {r : Index} {d : Word} (h : Completes s (.wrr r d) v u) {j : Fin 8}
    (hj : r.toNat ≠ 0x10 + j.val) : getField u.f j = getField s.f j := by
  cases h with
  | @wrrField k _ hd =>
    have hjk : j ≠ k := fun heq => hj (heq ▸ index_field_toNat k)
    exact getField_setField_other s.f hjk d
  | _ => rfl

theorem Completes.buf_row (h : Completes s i v u) (hne : u.buf ≠ s.buf) :
    (∃ a d, i = .stb a d) ∨ (∃ n d, i = .stw n d) ∨ ∃ n, i = .xform n := by
  cases h with
  | @stb a d => exact .inl ⟨a, d, rfl⟩
  | @stw n d => exact .inr (.inl ⟨n, d, rfl⟩)
  | @xform n => exact .inr (.inr ⟨n, rfl⟩)
  | _ => exact absurd rfl hne

theorem Completes.byte_of_stb {a : Index} {d : Word} (h : Completes s (.stb a d) v u) (hm : Buffer.wf s.buf) {b : Nat}
    (hb : b ≠ a.toNat) : readByte u.buf b = readByte s.buf b := by
  cases h with
  | stb => rw [setBuf_buf, readByte_writeByte hm, if_neg hb]

theorem Completes.byte_of_stw {n : Index} {d : Word} (h : Completes s (.stw n d) v u) (hm : Buffer.wf s.buf) {b : Nat}
    (hb : b < 4 * n.toNat ∨ 4 * n.toNat + 3 < b) : readByte u.buf b = readByte s.buf b := by
  cases h with
  | stw hn =>
    rw [setBuf_buf, readByte_writeWord hm (by simp only [Config.bufBytes] at *; omega), if_neg (by omega)]

theorem Completes.byte_of_xform {n : Word} (h : Completes s (.xform n) v u) (hm : Buffer.wf s.buf) {b : Nat}
    (hb : n.toNat ≤ b) : readByte u.buf b = readByte s.buf b := by
  cases h with
  | xform hmod hle => rw [setBuf_buf, readByte_xformWords hm _ (by omega), if_neg (by omega)]

end

end Sys2Proof.Machine
end

section
/-! SUPPORT. The invariant of the block (spec/10_state.md R15, spec/60_exceptions.md R85): what `firstFault` answers,
and that each way a step can go keeps the invariant. -/

namespace Sys2Proof.Machine

theorem firstFault_cons (r : Response) (older : List Response) :
    firstFault (r :: older) = if firstFault older = 0 then r.err else firstFault older := rfl

/-- The first fault among legal responses is one of the codes of 60_exceptions.md R78, or 0. -/
theorem firstFault_le {rs : List Response} (h : ∀ r ∈ rs, Response.legal r) : (firstFault rs).toNat ≤ 3 := by
  induction rs with
  | nil => decide
  | cons r older ih =>
    obtain ⟨⟨hr, -⟩, holder⟩ := List.forall_mem_cons.1 h
    rw [firstFault_cons]
    split
    · exact hr
    · exact ih holder

/-- The first cause sticks in `ERR` just as the oldest fault stays the first. -/
theorem latchErr_firstFault (c : Cause) (rs : List Response) :
    latchErr (firstFault rs) c = firstFault (⟨causeCode c, 0⟩ :: rs) := rfl

theorem legal_of_completion (v : Word) : Response.legal ⟨0, v⟩ :=
  ⟨Nat.zero_le 3, fun h => absurd rfl h⟩

theorem legal_of_fault (c : Cause) : Response.legal ⟨causeCode c, 0⟩ := ⟨causeCode_le c, fun _ => rfl⟩

variable {s t : State}

theorem inv_reset : State.Inv State.reset := ⟨wf_nil, by simp [State.reset], rfl⟩

/-- The invariant does not look at what the host will do. -/
theorem inv_withPort (h : State.Inv s) (p : List HostEvent) : State.Inv (s.withPort p) := h

theorem inv_respond (h : State.Inv s) (v : Word) : State.Inv (s.respond v) := by
  obtain ⟨hbuf, hlegal, herr⟩ := h
  refine ⟨hbuf, List.forall_mem_cons.2 ⟨legal_of_completion v, hlegal⟩, ?_⟩
  rw [respond_err, respond_responses, firstFault_cons, herr]
  split
  · assumption
  · rfl

theorem inv_raiseFault (h : State.Inv s) (c : Cause) : State.Inv (raiseFault c s) := by
  obtain ⟨hbuf, hlegal, herr⟩ := h
  refine ⟨hbuf, List.forall_mem_cons.2 ⟨legal_of_fault c, hlegal⟩, ?_⟩
  rw [raiseFault_err, raiseFault_responses, herr, latchErr_firstFault]

theorem Completes.inv {i : Instr} {v : Word} {u : State} (hc : Completes s i v u) (h : State.Inv s) : State.Inv u := by
  obtain ⟨hbuf, hlegal, herr⟩ := h
  refine ⟨hc.wf_buf hbuf, ?_, ?_⟩
  · rwa [hc.responses_eq]
  · rwa [hc.err_eq, hc.responses_eq]

theorem inv_exec {i : Instr} (h : State.Inv s) (hexec : exec i s = .next t) : State.Inv t := by
  rcases exec_cases hexec with ⟨v, u, hc, rfl⟩ | ⟨-, c, rfl⟩
  · exact inv_respond (hc.inv h) v
  · exact inv_raiseFault h c

theorem inv_executeWord {cw : CommandWord} (h : State.Inv s) (hexec : executeWord cw s = .next t) : State.Inv t := by
  rcases executeWord_cases hexec with ⟨i, -, hi⟩ | ⟨e, -, rfl⟩
  · exact inv_exec h hi
  · exact inv_raiseFault h .illegal

end Sys2Proof.Machine
end

section
/-! SUPPORT. A listing runs command by command (spec/70_reset_and_hazards.md R104): each word decodes to the command it
was encoded from, and the rest of the listing runs from the state it leaves. -/

namespace Sys2Proof.Machine

theorem decode_encode (i : Instr) : decode (encode i) = .ok i := by
  cases i <;> rw [encode, decode_commandWord] <;> rfl

variable {s t : State} {i : Instr}

/-- What the host will do next passes through a command unread. -/
theorem exec_withPort (h : exec i s = .next t) (p : List HostEvent) : exec i (s.withPort p) = .next (t.withPort p) := by
  obtain ⟨u, r, hu⟩ := exec_answersFromBlock s i
  obtain rfl : t = u.withPorts s.port (r :: s.responses) := Host.Outcome.next.inj (h.symm.trans (hu s.port s.responses))
  exact hu p s.responses

theorem core_run_succ {k : Nat} (h : step s = .next t) : Sys2Proof.core.run (k + 1) s = Sys2Proof.core.run k t := by
  have hcore : Sys2Proof.core.step s = .next t := h
  simp only [Host.Core.run, hcore]

theorem runListing_nil (s : State) : runListing [] s = .next (s.withPort []) := rfl

theorem runListing_cons (h : exec i s = .next t) (is : List Instr) : runListing (i :: is) s = runListing is t := by
  have hstep : step (s.withPort (issueAll (i :: is))) = .next (t.withPort (issueAll is)) := by
    rw [step_of_command (cw := encode i) (rest := issueAll is) rfl, executeWord_of_decode_ok (decode_encode i)]
    exact exec_withPort h (issueAll is)
  exact core_run_succ hstep

/-- The run of `SETKEY k` and `RDR KEY` (30_encoding.md R48): `PV` holds `k`, `OTID` 0, and `KEY` reads `k`. -/
theorem runListing_setkey_rdr_key (s : State) (k : Word) :
    ∃ t, runListing (expandPseudo (.setkey k) ++ [.rdr 0x02]) s = .next t ∧
      t.responses = ⟨0, k⟩ :: ⟨0, 0⟩ :: ⟨0, 0⟩ :: s.responses := by
  have hkey : readReg ((((s.setPv k).respond 0).setOtid 0).respond 0) .key = k := by simp [readReg, State.key, keyOf]
  have hpv := runListing_cons (exec_wrr_pv s k) [.wrr 0x01 0, .rdr 0x02]
  have hotid := runListing_cons (exec_wrr_otid ((s.setPv k).respond 0) 0) [.rdr 0x02]
  have hrdr := runListing_cons (exec_rdr_index _ .key hkey) []
  exact ⟨_, hpv.trans (hotid.trans (hrdr.trans (runListing_nil _))), rfl⟩

end Sys2Proof.Machine
end

section
/-! The statements of spec/10_state.md: the reset state, the `KEY` view, `ERR`, the access table, a read after a write,
and the invariant of the block. -/

namespace Sys2Proof.Machine

/-- Settles O47, by what a step can do: it idles, runs a command word, or resets. -/
theorem stepKeepsTheBlockInvariant : Obligations.StepKeepsTheBlockInvariant := by
  intro s t hinv hstep
  rcases step_cases hstep with ⟨-, rfl⟩ | ⟨cw, rest, -, hexec⟩ | ⟨rest, -, rfl⟩ | ⟨cw, rest, -, rfl⟩
  · exact hinv
  · exact inv_executeWord (inv_withPort hinv rest) hexec
  · exact inv_withPort inv_reset rest
  · exact inv_withPort inv_reset rest

/-- Settles O46: no byte is listed, nothing is answered, and `ERR` is 0. -/
theorem resetSatisfiesTheBlockInvariant : Obligations.ResetSatisfiesTheBlockInvariant := inv_reset

/-- Settles O19; the last clause is the run of the three commands. -/
theorem keyIsAlwaysRecomputed : Obligations.KeyIsAlwaysRecomputed :=
  fun s k d => ⟨exec_rdr_index s .key rfl, exec_wrr_key s d, runListing_setkey_rdr_key s k⟩

/-- Settles O36: `ERR` is the first fault among legal responses. -/
theorem errHoldsOnlyTheFourCodes : Obligations.ErrHoldsOnlyTheFourCodes := by
  rintro s ⟨-, hlegal, herr⟩
  exact ⟨herr ▸ firstFault_le hlegal, exec_rdr_index s .err (BitVec.ofNat_toNat ..).symm⟩

/-- Settles O43: a command that completes writes what `Completes` says of it, one that faults takes the fault entry. -/
theorem commandsWriteOnlyTheirRow : Obligations.CommandsWriteOnlyTheirRow := by
  intro i s t hexec
  rcases exec_cases hexec with ⟨v, u, hc, rfl⟩ | ⟨hw, c, rfl⟩
  · refine ⟨hc.pv_row, hc.otid_row, hc.ivw_row, hc.f_row, ?_, hc.buf_row, fun hm => ⟨?_, ?_, ?_⟩, ?_, ?_, hc.port_eq⟩
    · rintro r d rfl j hj
      exact hc.field_of_wrr hj
    · rintro a d rfl b hb
      exact hc.byte_of_stb hm hb
    · rintro n d rfl b hb
      exact hc.byte_of_stw hm hb
    · rintro n rfl b hb
      exact hc.byte_of_xform hm hb
    · exact fun hne => absurd hc.err_eq hne
    · exact fun hw => absurd (hc.wellFormed.symm.trans hw) (by decide)
  · refine ⟨by simp, by simp, by simp, by simp, by simp, by simp, by simp, ?_, ?_, rfl⟩
    · exact fun hne => ⟨hw, err_zero_of_latchErr_ne hne⟩
    · exact fun _ => ⟨rfl, rfl, rfl, rfl, rfl, rfl⟩

/-- Settles O44, by the four kinds of register that `WRR` can have written. -/
theorem rdrAfterWrrAnswersTheValue : Obligations.RdrAfterWrrAnswersTheValue := by
  intro s r d hwritable hfits
  have hw : (Instr.wrr r d).wellFormed = true := by simp [Instr.wellFormed, hwritable, hfits]
  obtain ⟨v, u, hc, hexec⟩ := exec_of_wellFormed s hw
  refine ⟨_, hexec, ?_⟩
  cases hc with
  | wrrPv => exact exec_rdr_index _ .pv rfl
  | wrrOtid => exact exec_rdr_index _ .otid rfl
  | wrrIvw => exact exec_rdr_index _ .ivw rfl
  | @wrrField j _ hd => exact exec_rdr_index _ (.field j) (getField_setField s.f j hd)

/-- Settles O1: the `ORDER` clause holds because `PV` = 0 selects index 0, whatever the table. -/
theorem resetStateIsAllZero : Obligations.ResetStateIsAllZero := by
  refine ⟨rfl, rfl, rfl, rfl, ?_, readByte_nil, exec_rdr_index State.reset .key rfl, ?_⟩
  · intro i
    fin_cases i <;> rfl
  · have hdata : orderData Config.orderTable 0 = (ordCode (orderTypes (Config.orderTable 0))).setWidth 32 :=
      BitVec.zero_or
    calc exec .order State.reset = .next (answered State.reset (orderData Config.orderTable 0)) := rfl
      _ = _ := by rw [hdata]

end Sys2Proof.Machine
end

section
/-! SUPPORT. Bytes and words at the command port (spec/20_memory.md R26 to R28): the addresses of the bytes of word `n`,
the bytes of a word as the host writes them, and what a load or a store with legal operands answers. -/

namespace Sys2Proof.Machine

/-- No address of a byte of a legal word wraps around. -/
theorem toNat_byteIndex {n : Index} (hn : n.toNat < 12) {j : Nat} (hj : j < 4) :
    (4 * n + BitVec.ofNat 8 j).toNat = 4 * n.toNat + j := by
  have hfour : (4 : Index).toNat = 4 := rfl
  rw [BitVec.toNat_add, BitVec.toNat_mul, BitVec.toNat_ofNat, hfour]
  omega

/-- The four bytes of a legal word lie in the buffer. -/
theorem wordEnd_lt {n : Index} (hn : n.toNat < 12) : 4 * n.toNat + 3 < Config.bufBytes := by
  rw [Config.bufBytes]
  omega

theorem setWidth_byteOf (v : Word) (j : Nat) :
    (byteOf v j).setWidth 32 = BitVec.ofNat 32 (v.toNat / 2 ^ (8 * j) % 2 ^ 8) := by
  rw [← byteOf_toNat, BitVec.ofNat_toNat]

/-- Byte `j` of a word as data: the word shifted down to it and masked. -/
theorem shiftRight_and_eq_byteOf (v : Word) (j : Nat) : v >>> (8 * j) &&& 0xFF = (byteOf v j).setWidth 32 := by
  apply BitVec.eq_of_toNat_eq
  have hbyte := (byteOf v j).isLt
  have hmask : (0xFF : Word).toNat = 2 ^ 8 - 1 := rfl
  rw [BitVec.toNat_and, BitVec.toNat_ushiftRight, hmask, Nat.and_two_pow_sub_one_eq_mod, Nat.shiftRight_eq_div_pow,
    ← byteOf_toNat, BitVec.toNat_setWidth, Nat.mod_eq_of_lt (by omega)]

/-- The top byte needs no mask. -/
theorem shiftRight_eq_byteOf_three (v : Word) : v >>> 24 = (byteOf v 3).setWidth 32 := by
  apply BitVec.eq_of_toNat_eq
  have := v.isLt
  rw [BitVec.toNat_ushiftRight, Nat.shiftRight_eq_div_pow, BitVec.toNat_setWidth, byteOf_toNat]
  omega

/-- A word read after a write of the word at the same address. -/
theorem readWord_writeWord {m : Buffer} (hm : Buffer.wf m) {a : Nat} (ha : a + 3 < Config.bufBytes) (v : Word) :
    readWord (writeWord m a v) a = v := by
  have hbyte : ∀ j ≤ 3, readByte (writeWord m a v) (a + j) = byteOf v j := fun j hj => by
    rw [readByte_writeWord hm ha, if_pos (by omega), Nat.add_sub_cancel_left]
  calc readWord (writeWord m a v) a
      = wordOf (byteOf v 0) (byteOf v 1) (byteOf v 2) (byteOf v 3) := by
        rw [readWord, ← hbyte 0 (by decide), hbyte 1 (by decide), hbyte 2 (by decide), hbyte 3 (by decide),
          Nat.add_zero]
    _ = v := wordOf_byteOf v

section
variable (s : State)

theorem exec_ldb {a : Index} (ha : a.toNat < Config.bufBytes) :
    exec (.ldb a) s = .next (s.respond ((readByte s.buf a.toNat).setWidth 32)) := by
  obtain ⟨_, _, hc, hexec⟩ := exec_of_wellFormed s (i := .ldb a) (decide_eq_true ha)
  cases hc
  exact hexec

theorem exec_ldw {n : Index} (hn : n.toNat < 12) :
    exec (.ldw n) s = .next (s.respond (readWord s.buf (4 * n.toNat))) := by
  obtain ⟨_, _, hc, hexec⟩ := exec_of_wellFormed s (i := .ldw n) (decide_eq_true hn)
  cases hc
  exact hexec

theorem exec_stw {n : Index} (hn : n.toNat < 12) (d : Word) :
    exec (.stw n d) s = .next ((s.setBuf (writeWord s.buf (4 * n.toNat) d)).respond 0) := by
  obtain ⟨_, _, hc, hexec⟩ := exec_of_wellFormed s (i := .stw n d) (decide_eq_true hn)
  cases hc
  exact hexec

theorem exec_stb_setWidth {a : Index} (ha : a.toNat < Config.bufBytes) (b : Byte) :
    exec (.stb a (b.setWidth 32)) s = .next ((s.setBuf (writeByte s.buf a.toNat b)).respond 0) := by
  have hb : (b.setWidth 32).toNat ≤ 0xFF := by
    have := b.isLt
    rw [BitVec.toNat_setWidth]
    omega
  obtain ⟨_, _, hc, hexec⟩ :=
    exec_of_wellFormed s (i := .stb a (b.setWidth 32))
      (Bool.and_eq_true_iff.2 ⟨decide_eq_true ha, decide_eq_true hb⟩)
  cases hc
  rwa [BitVec.setWidth_setWidth_of_le b (by decide), BitVec.setWidth_eq] at hexec

/-- `STB` of byte `j` of `d` at byte `j` of word `n`. -/
theorem exec_stb_byteOf {n : Index} (hn : n.toNat < 12) (d : Word) {j : Nat} (hj : j < 4) :
    exec (.stb (4 * n + BitVec.ofNat 8 j) ((byteOf d j).setWidth 32)) s =
      .next ((s.setBuf (writeByte s.buf (4 * n.toNat + j) (byteOf d j))).respond 0) := by
  have haddr := toNat_byteIndex hn hj
  have hend := wordEnd_lt hn
  rw [exec_stb_setWidth s (by omega), haddr]

/-- The four byte stores are, in this order, the one word write of R27. -/
theorem runListing_four_stb {n : Index} (hn : n.toNat < 12) (d : Word) (is : List Instr) :
    ∃ t, runListing (.stb (4 * n) ((byteOf d 0).setWidth 32) :: .stb (4 * n + 1) ((byteOf d 1).setWidth 32) ::
        .stb (4 * n + 2) ((byteOf d 2).setWidth 32) :: .stb (4 * n + 3) ((byteOf d 3).setWidth 32) :: is) s =
        runListing is t ∧
      t.buf = writeWord s.buf (4 * n.toNat) d ∧
      t.responses = ⟨0, 0⟩ :: ⟨0, 0⟩ :: ⟨0, 0⟩ :: ⟨0, 0⟩ :: s.responses := by
  have haddr : 4 * n + BitVec.ofNat 8 0 = 4 * n := BitVec.add_zero _
  have h0 := exec_stb_byteOf s hn d (show 0 < 4 by decide)
  rw [haddr] at h0
  exact ⟨_, (runListing_cons h0 _).trans
    ((runListing_cons (exec_stb_byteOf _ hn d (show 1 < 4 by decide)) _).trans
    ((runListing_cons (exec_stb_byteOf _ hn d (show 2 < 4 by decide)) _).trans
    (runListing_cons (exec_stb_byteOf _ hn d (show 3 < 4 by decide)) is))), rfl, rfl⟩

end

end Sys2Proof.Machine
end

section
/-! The statements of spec/20_memory.md: the byte view and the word view of the buffer are one picture (R28). -/

namespace Sys2Proof.Machine

/-- Settles O10: the load reads back the word that the four byte stores wrote. -/
theorem fourByteStoresMakeTheWord : Obligations.FourByteStoresMakeTheWord := by
  intro s n d hm hn
  have hend := wordEnd_lt hn
  have hd0 : d &&& 0xFF = (byteOf d 0).setWidth 32 := by
    rw [← shiftRight_and_eq_byteOf, Nat.mul_zero, BitVec.ushiftRight_zero]
  have hd1 : d >>> 8 &&& 0xFF = (byteOf d 1).setWidth 32 := shiftRight_and_eq_byteOf d 1
  have hd2 : d >>> 16 &&& 0xFF = (byteOf d 2).setWidth 32 := shiftRight_and_eq_byteOf d 2
  rw [hd0, hd1, hd2, shiftRight_eq_byteOf_three]
  obtain ⟨t, hstores, hbuf, hresponses⟩ := runListing_four_stb s hn d [.ldw n]
  have hload := runListing_cons (exec_ldw t hn) []
  rw [hbuf, readWord_writeWord hm hend] at hload
  refine ⟨_, hstores.trans (hload.trans (runListing_nil _)), ?_⟩
  rw [withPort_responses, respond_responses, hresponses]

/-- Settles O11: the byte at `4n + j` after the word write is byte `j` of the word. -/
theorem ldbAfterStwAnswersTheByteOfTheWord : Obligations.LdbAfterStwAnswersTheByteOfTheWord := by
  intro s n d j hm hn
  have haddr := toNat_byteIndex hn j.isLt
  have hend := wordEnd_lt hn
  refine ⟨_, exec_stw s hn d, ?_⟩
  rw [exec_ldb _ (by omega), haddr, respond_buf, setBuf_buf, readByte_writeWord hm hend, if_pos (by omega),
    Nat.add_sub_cancel_left, setWidth_byteOf]
  rfl

end Sys2Proof.Machine
end

section
/-! SUPPORT. The decoder, said once (spec/30_encoding.md R41, R44 to R46): it reads back the command whose word it is
given, or the word fails check 1 or check 2 of R46. -/

namespace Sys2Proof.Machine

/-! ### Checks 1 and 2 on three numbers -/

section
variable {op idx data : Nat}

theorem checkOrder_of_unknownOpcode (h : op ∉ [0x00, 0x01, 0x02, 0x03, 0x04, 0x05, 0x06, 0x10, 0x11, 0x20, 0x30]) :
    checkOrder op idx data = 2 := if_pos h

theorem checkOrder_of_reserved
    (h : (op ∈ [0x00, 0x10, 0x11, 0x20, 0x30] ∧ idx ≠ 0) ∨
      (op ∈ [0x00, 0x01, 0x03, 0x05, 0x10, 0x11, 0x30] ∧ data ≠ 0)) :
    checkOrder op idx data = 2 := by
  rw [checkOrder, if_pos h, ite_self]

end

/-! ### The two answers of the decoder -/

/-- What the decoder may answer for a word of three fields: the command of that word, or, where check 1 or check 2 of R46
fails, an error. -/
inductive Decodes (op : BitVec 8) (idx : Index) (data : Word) : Except DecodeError Instr → Prop where
  | command {i : Instr} (h : encode i = commandWord op idx data) : Decodes op idx data (.ok i)
  | refused (e : DecodeError) (h : checkOrder op.toNat idx.toNat data.toNat = 2) : Decodes op idx data (.error e)

section
variable {op : BitVec 8} {idx : Index} {data : Word} {i : Instr}

theorem Decodes.reservedIdx (hop : op.toNat ∈ [0x00, 0x10, 0x11, 0x20, 0x30]) (hidx : idx ≠ 0) :
    Decodes op idx data (.error .reservedIdx) :=
  .refused _ (checkOrder_of_reserved (.inl ⟨hop, fun h => hidx (BitVec.eq_of_toNat_eq h)⟩))

theorem Decodes.reservedData (hop : op.toNat ∈ [0x00, 0x01, 0x03, 0x05, 0x10, 0x11, 0x30]) (hdata : data ≠ 0) :
    Decodes op idx data (.error .reservedData) :=
  .refused _ (checkOrder_of_reserved (.inr ⟨hop, fun h => hdata (BitVec.eq_of_toNat_eq h)⟩))

theorem noIdx_decodes (hop : op.toNat ∈ [0x00, 0x10, 0x11, 0x20, 0x30]) (h : encode i = commandWord op 0 data) :
    Decodes op idx data (noIdx idx i) := by
  by_cases hidx : idx = 0
  · subst hidx
    exact .command h
  · rw [noIdx, if_pos hidx]
    exact .reservedIdx hop hidx

theorem noData_decodes (hop : op.toNat ∈ [0x00, 0x01, 0x03, 0x05, 0x10, 0x11, 0x30])
    (h : encode i = commandWord op idx 0) : Decodes op idx data (noData data i) := by
  by_cases hdata : data = 0
  · subst hdata
    exact .command h
  · rw [noData, if_pos hdata]
    exact .reservedData hop hdata

theorem noOperands_decodes (hop : op.toNat ∈ [0x00, 0x10, 0x11, 0x30]) (h : encode i = commandWord op 0 0) :
    Decodes op idx data (noOperands idx data i) := by
  have hopIdx := (show [0x00, 0x10, 0x11, 0x30] ⊆ [0x00, 0x10, 0x11, 0x20, 0x30] by decide) hop
  have hopData := (show [0x00, 0x10, 0x11, 0x30] ⊆ [0x00, 0x01, 0x03, 0x05, 0x10, 0x11, 0x30] by decide) hop
  by_cases hidx : idx = 0
  · subst hidx
    exact noData_decodes hopData h
  · rw [noOperands, if_pos hidx]
    exact .reservedIdx hopIdx hidx

end

/-- The decoder, by the rows of the opcode map. -/
theorem decode_decodes (op : BitVec 8) (idx : Index) (data : Word) :
    Decodes op idx data (decode (commandWord op idx data)) := by
  have heq {n : Nat} (hn : op.toNat = n) : op = BitVec.ofNat 8 n := by rw [← hn, BitVec.ofNat_toNat, BitVec.setWidth_eq]
  rw [decode_commandWord]
  split
  next hop => obtain rfl := heq hop; exact noOperands_decodes (by decide) rfl
  next hop => obtain rfl := heq hop; exact noData_decodes (by decide) rfl
  next hop => obtain rfl := heq hop; exact .command rfl
  next hop => obtain rfl := heq hop; exact noData_decodes (by decide) rfl
  next hop => obtain rfl := heq hop; exact .command rfl
  next hop => obtain rfl := heq hop; exact noData_decodes (by decide) rfl
  next hop => obtain rfl := heq hop; exact .command rfl
  next hop => obtain rfl := heq hop; exact noOperands_decodes (by decide) rfl
  next hop => obtain rfl := heq hop; exact noOperands_decodes (by decide) rfl
  next hop => obtain rfl := heq hop; exact noIdx_decodes (by decide) rfl
  next hop => obtain rfl := heq hop; exact noOperands_decodes (by decide) rfl
  next =>
    refine .refused _ (checkOrder_of_unknownOpcode ?_)
    simp only [List.mem_cons, List.not_mem_nil, or_false, not_or]
    exact ⟨‹_›, ‹_›, ‹_›, ‹_›, ‹_›, ‹_›, ‹_›, ‹_›, ‹_›, ‹_›, ‹_›⟩

theorem encode_of_decode {cw : CommandWord} {i : Instr} (h : decode cw = .ok i) : encode i = cw := by
  have hd := decode_decodes (opField cw) (idxField cw) (dataField cw)
  rw [commandWord_fields, h] at hd
  cases hd with
  | command he => exact he.trans (commandWord_fields cw)

/-- A word that is no command fails check 1 or check 2 of R46. -/
theorem checkOrder_of_decode_error {cw : CommandWord} {e : DecodeError} (h : decode cw = .error e) :
    checkOrder (opField cw).toNat (idxField cw).toNat (dataField cw).toNat = 2 := by
  have hd := decode_decodes (opField cw) (idxField cw) (dataField cw)
  rw [commandWord_fields, h] at hd
  cases hd with
  | refused _ hc => exact hc

/-- `decode` and `encode` are inverse to each other. -/
theorem decode_eq_ok_iff {cw : CommandWord} {i : Instr} : decode cw = .ok i ↔ encode i = cw :=
  ⟨encode_of_decode, fun h => h ▸ decode_encode i⟩

/-! ### The rows of the opcode table, field by field -/

theorem commandWord_inj {op op' : BitVec 8} {idx idx' : Index} {data data' : Word} :
    commandWord op idx data = commandWord op' idx' data' ↔ op = op' ∧ idx = idx' ∧ data = data' := by
  refine ⟨fun h => ⟨?_, ?_, ?_⟩, by rintro ⟨rfl, rfl, rfl⟩; rfl⟩
  · rw [← opField_commandWord op idx data, h, opField_commandWord]
  · rw [← idxField_commandWord op idx data, h, idxField_commandWord]
  · rw [← dataField_commandWord op idx data, h, dataField_commandWord]

/-- The AND of two words is that of their fields. -/
theorem commandWord_and (op op' : BitVec 8) (idx idx' : Index) (data data' : Word) :
    commandWord op idx data &&& commandWord op' idx' data' = commandWord (op &&& op') (idx &&& idx') (data &&& data') := by
  rw [← commandWord_fields (commandWord op idx data &&& commandWord op' idx' data')]
  congr 1
  · rw [opField, BitVec.extractLsb'_and, ← opField, ← opField, opField_commandWord, opField_commandWord]
  · rw [idxField, BitVec.extractLsb'_and, ← idxField, ← idxField, idxField_commandWord, idxField_commandWord]
  · rw [dataField, BitVec.extractLsb'_and, ← dataField, ← dataField, dataField_commandWord, dataField_commandWord]

section
variable {cw : CommandWord} {p : BitVec 8}

/-- A mask of whole fields that fixes `op` holds a word to `op`, and to 0 in each field that it covers. -/
theorem and_commandWord_eq_iff {mi : Index} {md : Word} :
    cw &&& commandWord 0xFF mi md = commandWord p 0 0 ↔
      opField cw = p ∧ idxField cw &&& mi = 0 ∧ dataField cw &&& md = 0 := by
  have hop : opField cw &&& 0xFF = opField cw := BitVec.and_allOnes
  conv_lhs => rw [← commandWord_fields cw, commandWord_and, commandWord_inj, hop]

theorem matches_both_iff :
    cw &&& commandWord 0xFF 0 0 = commandWord p 0 0 ↔ ∃ idx data, commandWord p idx data = cw := by
  rw [and_commandWord_eq_iff]
  constructor
  · rintro ⟨rfl, -, -⟩
    exact ⟨idxField cw, dataField cw, commandWord_fields cw⟩
  · rintro ⟨idx, data, rfl⟩
    exact ⟨opField_commandWord .., BitVec.and_zero, BitVec.and_zero⟩

theorem matches_noData_iff :
    cw &&& commandWord 0xFF 0 0xFFFFFFFF = commandWord p 0 0 ↔ ∃ idx, commandWord p idx 0 = cw := by
  have hdata : dataField cw &&& 0xFFFFFFFF = dataField cw := BitVec.and_allOnes
  rw [and_commandWord_eq_iff, hdata]
  constructor
  · rintro ⟨rfl, -, h⟩
    exact ⟨idxField cw, h ▸ commandWord_fields cw⟩
  · rintro ⟨idx, rfl⟩
    exact ⟨opField_commandWord .., BitVec.and_zero, dataField_commandWord ..⟩

theorem matches_noIdx_iff :
    cw &&& commandWord 0xFF 0xFF 0 = commandWord p 0 0 ↔ ∃ data, commandWord p 0 data = cw := by
  have hidx : idxField cw &&& 0xFF = idxField cw := BitVec.and_allOnes
  rw [and_commandWord_eq_iff, hidx]
  constructor
  · rintro ⟨rfl, h, -⟩
    exact ⟨dataField cw, h ▸ commandWord_fields cw⟩
  · rintro ⟨data, rfl⟩
    exact ⟨opField_commandWord .., idxField_commandWord .., BitVec.and_zero⟩

theorem matches_noOperands_iff :
    cw &&& commandWord 0xFF 0xFF 0xFFFFFFFF = commandWord p 0 0 ↔ commandWord p 0 0 = cw := by
  have hall : commandWord 0xFF 0xFF 0xFFFFFFFF = BitVec.allOnes 48 := by decide
  rw [hall, BitVec.and_allOnes, eq_comm]

end

/-- The rows of the table by their fields: a mask covers `op` and each field that R41 marks as none. -/
theorem opcodeRows_eq :
    opcodeRows =
      [⟨commandWord 0xFF 0xFF 0xFFFFFFFF, commandWord 0x00 0 0⟩, ⟨commandWord 0xFF 0 0xFFFFFFFF, commandWord 0x01 0 0⟩,
        ⟨commandWord 0xFF 0 0, commandWord 0x02 0 0⟩, ⟨commandWord 0xFF 0 0xFFFFFFFF, commandWord 0x03 0 0⟩,
        ⟨commandWord 0xFF 0 0, commandWord 0x04 0 0⟩, ⟨commandWord 0xFF 0 0xFFFFFFFF, commandWord 0x05 0 0⟩,
        ⟨commandWord 0xFF 0 0, commandWord 0x06 0 0⟩, ⟨commandWord 0xFF 0xFF 0xFFFFFFFF, commandWord 0x10 0 0⟩,
        ⟨commandWord 0xFF 0xFF 0xFFFFFFFF, commandWord 0x11 0 0⟩, ⟨commandWord 0xFF 0xFF 0, commandWord 0x20 0 0⟩,
        ⟨commandWord 0xFF 0xFF 0xFFFFFFFF, commandWord 0x30 0 0⟩] := by decide

/-- A search over the commands goes through the constructors, which stand in the order of the table. -/
theorem exists_instr_iff {q : Instr → Prop} :
    (∃ i, q i) ↔
      q .nop ∨ (∃ r, q (.rdr r)) ∨ (∃ r d, q (.wrr r d)) ∨ (∃ a, q (.ldb a)) ∨ (∃ a d, q (.stb a d)) ∨
        (∃ n, q (.ldw n)) ∨ (∃ n d, q (.stw n d)) ∨ q .unpack ∨ q .pack ∨ (∃ n, q (.xform n)) ∨ q .order := by
  constructor
  · rintro ⟨i, h⟩
    cases i <;> grind
  · rintro (h | ⟨r, h⟩ | ⟨r, d, h⟩ | ⟨a, h⟩ | ⟨a, d, h⟩ | ⟨n, h⟩ | ⟨n, d, h⟩ | h | h | ⟨n, h⟩ | h)
    all_goals exact ⟨_, h⟩

/-- A word matches a row of the table exactly if it is the word of a command, row by row. -/
theorem matches_row_iff_encode (cw : CommandWord) :
    (∃ row ∈ opcodeRows, cw &&& row.mask = row.pattern) ↔ ∃ i, encode i = cw := by
  simp only [opcodeRows_eq, List.exists_mem_cons_iff, List.not_mem_nil, false_and, exists_false, or_false, matches_both_iff,
    matches_noData_iff, matches_noIdx_iff, matches_noOperands_iff, exists_instr_iff, encode]

end Sys2Proof.Machine
end

section
/-! SUPPORT. The fault of a command whose operands are not legal, by checks 3, 4 and 5 of spec/30_encoding.md R46: which
cause the meaning takes, and that `checkOrder` names the same. -/

namespace Sys2Proof.Machine

/-- The cause of the first operand check of R46 that the command can fail. It is the command's fault only if its operands
are not legal (`exec_of_not_wellFormed`). -/
def operandFault : Instr → Cause
  | .rdr _ => .illegal
  | .wrr r _ => if Index.writable r then .range else .illegal
  | .xform n => if n.toNat % 4 = 0 then .range else .align
  | _ => .range

section
variable (s : State)

theorem execRdr_of_not_wellFormed {r : Index} (h : (Instr.rdr r).wellFormed = false) :
    execRdr r s = takeFault .illegal s := by
  have hr : (regOf r).isSome = false := (regOf_isSome r).trans h
  exact execRdr_of_noReg (Option.not_isSome_iff_eq_none.1 (by simp [hr]))

theorem execWrr_of_not_wellFormed {r : Index} {d : Word} (h : (Instr.wrr r d).wellFormed = false) :
    execWrr r d s = takeFault (operandFault (.wrr r d)) s := by
  cases hr : regOf r with
  | none =>
    have hw : Index.writable r = false := by simp [Index.writable, ← regOf_isSome, hr]
    simp only [operandFault, hw, execWrr_of_noReg hr, Bool.false_eq_true, if_false]
  | some reg =>
    obtain rfl := eq_index_of_regOf hr
    cases reg with
    | key => rfl
    | err => rfl
    | field j =>
      have hd : ¬d.toNat < 2 ^ fieldWidth j := by simpa [Instr.wellFormed] using h
      simp only [operandFault, writable_index_field, execWrr_of_error hr (if_neg hd), if_true]
    | _ => cases h

theorem execStb_of_not_wellFormed {a : Index} {d : Word} (h : (Instr.stb a d).wellFormed = false) :
    execStb a d s = takeFault .range s := by
  by_cases ha : a.toNat < Config.bufBytes
  · have hd : ¬d.toNat ≤ 0xFF := fun hd => by simp [Instr.wellFormed, ha, hd] at h
    simp only [execStb, byteAddress_eq, byteOperand_eq, if_pos ha, if_neg hd]
  · simp only [execStb, byteAddress_eq, if_neg ha]

theorem execXform_of_not_wellFormed {n : Word} (h : (Instr.xform n).wellFormed = false) :
    execXform n s = takeFault (operandFault (.xform n)) s := by
  by_cases hmod : n.toNat % 4 = 0
  · have hle : ¬n.toNat ≤ Config.bufBytes := fun hle => by simp [Instr.wellFormed, hmod, hle] at h
    simp only [execXform, transformLength_eq, operandFault, if_neg (not_not.2 hmod), if_neg hle, if_pos hmod]
  · simp only [execXform, transformLength_eq, operandFault, if_pos hmod, if_neg hmod]

/-- A command whose operands are not legal takes the fault of the check that it fails. -/
theorem exec_of_not_wellFormed {i : Instr} (h : i.wellFormed = false) : exec i s = takeFault (operandFault i) s := by
  cases i with
  | rdr r => exact execRdr_of_not_wellFormed s h
  | wrr r d => exact execWrr_of_not_wellFormed s h
  | ldb a =>
    simp only [exec, execLdb, byteAddress_eq, if_neg (of_decide_eq_false h)]
    rfl
  | stb a d => exact execStb_of_not_wellFormed s h
  | ldw n =>
    simp only [exec, execLdw, wordAddress_eq, if_neg (of_decide_eq_false h)]
    rfl
  | stw n d =>
    simp only [exec, execStw, wordAddress_eq, if_neg (of_decide_eq_false h)]
    rfl
  | xform n => exact execXform_of_not_wellFormed s h
  | _ => cases h

end

/-! ### `checkOrder` on the words of commands -/

theorem readable_eq_true_iff (r : Index) :
    Index.readable r = true ↔ r.toNat ≤ 0x04 ∨ (0x10 ≤ r.toNat ∧ r.toNat ≤ 0x17) := by
  simp [Index.readable]

theorem checkOrder_rdr (r : Index) : checkOrder 0x01 r.toNat 0 = if Index.readable r then 0 else 2 := by
  by_cases hr : Index.readable r = true
  · have hr' := (readable_eq_true_iff r).1 hr
    simp [checkOrder, hr, hr']
  · have hr' := (readable_eq_true_iff r).not.1 hr
    simp [checkOrder, hr, hr']

theorem writable_eq_true_iff (r : Index) :
    Index.writable r = true ↔ Index.readable r = true ∧ ¬(r.toNat = 0x02 ∨ r.toNat = 0x04) := by
  simp [Index.writable, and_assoc]

/-- The bounds of a field register's value, for the indices of check 5 of R46. -/
theorem fits_eq_true_iff (r : Index) (d : Word) :
    Index.fits r d = true ↔
      ¬((0x10 ≤ r.toNat ∧ r.toNat ≤ 0x15 ∧ 31 < d.toNat) ∨ (0x16 ≤ r.toNat ∧ r.toNat ≤ 0x17 ∧ 1 < d.toNat)) := by
  unfold Index.fits
  split
  · rw [decide_eq_true_iff]
    omega
  · split
    · rw [decide_eq_true_iff]
      omega
    · simp only [true_iff]
      omega

theorem checkOrder_wrr (r : Index) (d : Word) :
    checkOrder 0x02 r.toNat d.toNat = if Index.writable r then if Index.fits r d then 0 else 3 else 2 := by
  have hchecks : checkOrder 0x02 r.toNat d.toNat =
      if ¬(r.toNat ≤ 0x04 ∨ (0x10 ≤ r.toNat ∧ r.toNat ≤ 0x17)) ∨ (r.toNat = 0x02 ∨ r.toNat = 0x04) then 2
      else if (0x10 ≤ r.toNat ∧ r.toNat ≤ 0x15 ∧ 31 < d.toNat) ∨ (0x16 ≤ r.toNat ∧ r.toNat ≤ 0x17 ∧ 1 < d.toNat) then 3
      else 0 := by
    simp [checkOrder]
  have hwritable := writable_eq_true_iff r
  have hfits := fits_eq_true_iff r d
  rw [readable_eq_true_iff] at hwritable
  rw [hchecks]
  by_cases hw : Index.writable r = true
  · rw [if_pos hw, if_neg (by tauto)]
    by_cases hd : Index.fits r d = true
    · rw [if_pos hd, if_neg (hfits.1 hd)]
    · rw [if_neg hd, if_pos (not_not.1 (hfits.not.1 hd))]
  · rw [if_neg hw, if_pos (by tauto)]

theorem checkOrder_ldb (a : Nat) : checkOrder 0x03 a 0 = if a < 48 then 0 else 3 := by
  by_cases ha : a < 48
  · simp [checkOrder, ha]
  · simp [checkOrder, ha, not_lt.1 ha]

theorem checkOrder_stb (a d : Nat) : checkOrder 0x04 a d = if a < 48 ∧ d ≤ 0xFF then 0 else 3 := by
  by_cases h : a < 48 ∧ d ≤ 0xFF
  · simp [checkOrder, h]
  · have hfails : 48 ≤ a ∨ 0xFF < d := by omega
    simp [checkOrder, h, hfails]

theorem checkOrder_ldw (n : Nat) : checkOrder 0x05 n 0 = if n < 12 then 0 else 3 := by
  by_cases hn : n < 12
  · simp [checkOrder, hn]
  · simp [checkOrder, hn, not_lt.1 hn]

theorem checkOrder_stw (n d : Nat) : checkOrder 0x06 n d = if n < 12 then 0 else 3 := by
  by_cases hn : n < 12
  · simp [checkOrder, hn]
  · simp [checkOrder, hn, not_lt.1 hn]

theorem checkOrder_xform (n : Nat) :
    checkOrder 0x20 0 n = if n % 4 = 0 then if n ≤ 48 then 0 else 3 else 1 := by
  by_cases hmod : n % 4 = 0
  · by_cases hle : n ≤ 48
    · simp [checkOrder, hmod, hle]
    · simp [checkOrder, hmod, hle, not_le.1 hle]
  · simp [checkOrder, hmod]

/-- On the word of a command `checkOrder` finds a failing check exactly if the operands are not legal, and then names the
cause that the meaning takes. -/
theorem checkOrder_encode (i : Instr) :
    checkOrder (opField (encode i)).toNat (idxField (encode i)).toNat (dataField (encode i)).toNat =
      if i.wellFormed then 0 else causeCode (operandFault i) := by
  have hwords : Config.bufBytes / 4 = 12 := rfl
  cases i <;> simp only [encode, opField_commandWord, idxField_commandWord, dataField_commandWord]
  case rdr r => exact checkOrder_rdr r
  case wrr r d =>
    refine (checkOrder_wrr r d).trans ?_
    cases hw : Index.writable r <;> simp [Instr.wellFormed, operandFault, hw, causeCode]
  case ldb a =>
    refine (checkOrder_ldb a.toNat).trans ?_
    simp [Instr.wellFormed, operandFault, causeCode]
  case stb a d =>
    refine (checkOrder_stb a.toNat d.toNat).trans ?_
    simp [Instr.wellFormed, operandFault, causeCode]
  case ldw n =>
    refine (checkOrder_ldw n.toNat).trans ?_
    simp [hwords, Instr.wellFormed, operandFault, causeCode]
  case stw n d =>
    refine (checkOrder_stw n.toNat d.toNat).trans ?_
    simp [hwords, Instr.wellFormed, operandFault, causeCode]
  case xform n =>
    refine (checkOrder_xform n.toNat).trans ?_
    by_cases hmod : n.toNat % 4 = 0 <;> simp [Instr.wellFormed, operandFault, hmod, causeCode]
  all_goals rfl

end Sys2Proof.Machine
end

section
/-! SUPPORT. The operand checks at the command port: how each of the 2^48 words is answered. -/

namespace Sys2Proof.Machine

/-- A command is answered with the code that R46 gives for its word: 0 and its row of the access table, or the fault entry. -/
theorem exec_answers_checkOrder (i : Instr) (s : State) :
    ∃ t r, exec i s = .next t ∧ t.responses = r :: s.responses ∧
      r.err = checkOrder (opField (encode i)).toNat (idxField (encode i)).toNat (dataField (encode i)).toNat ∧
      (r.err ≠ 0 → t = faulted s r.err) ∧ (r.err = 0 → t.err = s.err ∧ i.wellFormed = true) := by
  rw [checkOrder_encode]
  cases hw : i.wellFormed with
  | true =>
    obtain ⟨v, u, hc, hexec⟩ := exec_of_wellFormed s hw
    refine ⟨_, ⟨0, v⟩, hexec, ?_, rfl, fun h => absurd rfl h, fun _ => ⟨hc.err_eq, rfl⟩⟩
    rw [respond_responses, hc.responses_eq]
  | false =>
    refine ⟨_, ⟨causeCode (operandFault i), 0⟩, exec_of_not_wellFormed s hw, rfl, rfl, fun _ => rfl, fun h => ?_⟩
    exact absurd h (causeCode_ne_zero _)

end Sys2Proof.Machine
end

section
/-! SUPPORT. A list of words runs word by word (spec/70_reset_and_hazards.md R104), whether they are commands or not. -/

namespace Sys2Proof.Machine

variable {s t : State} {cw : CommandWord}

/-- What the host will do next passes through a command word unread. -/
theorem executeWord_withPort (h : executeWord cw s = .next t) (p : List HostEvent) :
    executeWord cw (s.withPort p) = .next (t.withPort p) := by
  obtain ⟨u, r, hu⟩ := executeWord_answersFromBlock s cw
  obtain rfl : t = u.withPorts s.port (r :: s.responses) := Host.Outcome.next.inj (h.symm.trans (hu s.port s.responses))
  exact hu p s.responses

theorem runWords_nil (h : s.port = []) : runWords [] s = .next s := by
  have hs : s.withPort [] = s := by rw [← h]; rfl
  exact congrArg _ hs

theorem runWords_cons (h : executeWord cw s = .next t) (ws : List CommandWord) :
    runWords (cw :: ws) s = runWords ws t := by
  have hstep : step (s.withPort ((cw :: ws).map .command)) = .next (t.withPort (ws.map .command)) := by
    rw [step_of_command (cw := cw) (rest := ws.map .command) rfl]
    exact executeWord_withPort h _
  exact core_run_succ hstep

/-- A step with `cw` issued runs `cw`, and the port is then as before. -/
theorem step_issue (s : State) (cw : CommandWord) : step (s.issue cw) = executeWord cw s :=
  step_of_command rfl

section
variable {host : List Response → Option CommandWord} {k : Nat}

theorem runHost_of_none (h : host s.responses = none) : runHost host (k + 1) s = .next s := by
  rw [runHost, h]

theorem runHost_of_some (h : host s.responses = some cw) (ht : executeWord cw s = .next t) :
    runHost host (k + 1) s = runHost host k t := by
  rw [runHost, h]
  simp only [step_issue, ht]

end

end Sys2Proof.Machine
end

section
/-! SUPPORT. The writes of the pseudo-commands (spec/30_encoding.md R48). -/

namespace Sys2Proof.Machine

section
variable (s : State) (d : Word)

theorem exec_wrr_ivw : exec (.wrr 0x03 d) s = .next ((s.setIvw d).respond 0) :=
  execWrr_of_ok (regOf_index .ivw) rfl

theorem exec_unpack : exec .unpack s = .next ((s.setFields (bitDecode s.ivw)).respond 0) := rfl

theorem exec_wrr_field (j : Fin 8) (hd : d.toNat < 2 ^ fieldWidth j) :
    exec (.wrr (Reg.field j).index d) s = .next ((s.setFields (setField s.f j d)).respond 0) :=
  execWrr_of_ok (regOf_index (.field j)) (if_pos hd)

end

/-- The expansion that `SETID` and `SETKEY` share. -/
theorem runListing_wrr_pv_otid (s : State) (pv otid : Word) :
    ∃ t, runListing [.wrr 0x00 pv, .wrr 0x01 otid] s = .next t ∧ sameBlock t { s with pv := pv, otid := otid } := by
  have hpv := runListing_cons (exec_wrr_pv s pv) [.wrr 0x01 otid]
  have hotid := runListing_cons (exec_wrr_otid ((s.setPv pv).respond 0) otid) []
  exact ⟨_, hpv.trans (hotid.trans (runListing_nil _)), rfl, rfl, rfl, rfl, rfl, rfl⟩

/-- Field registers written with 0 one after the other, and nothing else of the block. -/
theorem runListing_clear_fields (js : List (Fin 8)) (s : State) :
    ∃ t, runListing (js.map fun j => .wrr (Reg.field j).index 0) s = .next t ∧
      sameBlock t { s with f := js.foldl (fun f j => setField f j 0) s.f } := by
  induction js generalizing s with
  | nil => exact ⟨_, runListing_nil s, rfl, rfl, rfl, rfl, rfl, rfl⟩
  | cons j js ih =>
    obtain ⟨t, hrun, hblock⟩ := ih ((s.setFields (setField s.f j 0)).respond 0)
    exact ⟨t, (runListing_cons (exec_wrr_field s 0 j (Nat.two_pow_pos _)) _).trans hrun, hblock⟩

/-- `CLRF` is the clearing of all eight field registers in turn. -/
theorem expandPseudo_clrf : expandPseudo .clrf = (List.finRange 8).map fun j => .wrr (Reg.field j).index 0 := by
  decide

theorem clear_all_fields (f : Fields) : (List.finRange 8).foldl (fun f j => setField f j 0) f = Fields.zero := rfl

end Sys2Proof.Machine
end

section
/-! The statements of spec/30_encoding.md: the command word, the decoder and the encoder, the order of the checks, the
pseudo-commands, and the host that chooses its commands. -/

namespace Sys2Proof.Machine

/-- Settles O25, by `decode_encode`. -/
theorem decodeOfEncodeIsTheCommand : Obligations.DecodeOfEncodeIsTheCommand := decode_encode

/-- Settles O26, by the rows of the opcode map (`decode_decodes`). -/
theorem encodeOfDecodeIsTheWord : Obligations.EncodeOfDecodeIsTheWord := fun _ _ => encode_of_decode

/-- Settles O24: the fields are quotients and remainders of the word. -/
theorem commandWordHasOneFormat : Obligations.CommandWordHasOneFormat := by
  refine ⟨commandWord_toNat, fun cw => ⟨?_, ?_, ?_, commandWord_fields cw⟩⟩
  · have := cw.isLt
    rw [opField, BitVec.extractLsb'_toNat, Nat.shiftRight_eq_div_pow]
    omega
  · rw [idxField, BitVec.extractLsb'_toNat, Nat.shiftRight_eq_div_pow]
  · rw [dataField, BitVec.extractLsb'_toNat, Nat.shiftRight_zero]

/-- Settles O27: both sides say that the word is the word of a command. -/
theorem decoderAcceptsExactlyTheTable : Obligations.DecoderAcceptsExactlyTheTable := by
  intro cw
  calc (∃ i, decode cw = .ok i) ↔ ∃ i, encode i = cw := exists_congr fun _ => decode_eq_ok_iff
    _ ↔ ∃ row ∈ opcodeRows, cw &&& row.mask = row.pattern := (matches_row_iff_encode cw).symm

/-- Settles O29: a word that is no command fails check 1 or 2, and a command is answered by checks 3 to 5. -/
theorem firstFailingCheckGivesTheCode : Obligations.FirstFailingCheckGivesTheCode := by
  intro cw s
  cases hd : decode cw with
  | error e =>
    refine ⟨_, ⟨2, 0⟩, executeWord_of_decode_error hd, rfl, (checkOrder_of_decode_error hd).symm, fun _ => rfl, fun h => ?_⟩
    exact absurd h (by decide)
  | ok i =>
    obtain rfl := encode_of_decode hd
    obtain ⟨t, r, hexec, hresponses, herr, hfault, hcompletes⟩ := exec_answers_checkOrder i s
    refine ⟨t, r, (executeWord_of_decode_ok hd).trans hexec, hresponses, herr, hfault, fun h => ?_⟩
    obtain ⟨hkept, hw⟩ := hcompletes h
    exact ⟨hkept, i, rfl, hw, hexec⟩

/-- Settles O30: such a word does not decode, since one that decodes matches a row. -/
theorem nonCommandWordsFaultIllegal : Obligations.NonCommandWordsFaultIllegal := by
  intro s cw rest hport hrows
  cases hd : decode cw with
  | ok i =>
    obtain ⟨row, hmem, hmatch⟩ := (matches_row_iff_encode cw).2 ⟨i, encode_of_decode hd⟩
    exact absurd hmatch (hrows row hmem)
  | error e =>
    calc step s = executeWord cw (s.withPort rest) := step_of_command hport
      _ = takeFault .illegal (s.withPort rest) := executeWord_of_decode_error hd

/-- Settles O41, by induction on the bound: a word that the host chooses is the first of the list, and its response is what
the host goes on from. -/
theorem everyAdaptiveRunIsAFixedRun : Obligations.EveryAdaptiveRunIsAFixedRun := by
  intro host k
  induction k with
  | zero => exact fun s hport => ⟨[], s, Nat.le_refl 0, rfl, runWords_nil hport, rfl⟩
  | succ k ih =>
    intro s hport
    cases hhost : host s.responses with
    | none => exact ⟨[], s, Nat.zero_le _, runHost_of_none hhost, runWords_nil hport, rfl⟩
    | some cw =>
      obtain ⟨t, r, hexec, htport, hresponses⟩ := (executeWord_answersFromBlock s cw).answers_once
      obtain ⟨ws, u, hlen, hrun, hwords, hcount⟩ := ih t (htport.trans hport)
      refine ⟨cw :: ws, u, Nat.succ_le_succ hlen, (runHost_of_some hhost hexec).trans hrun,
        (runWords_cons hexec ws).trans hwords, ?_⟩
      rw [hcount, hresponses, List.length_cons, List.length_cons]
      omega

/-- Settles O28: five of the words are `encode` of their commands; the last is refused by its opcode. -/
theorem exampleWordsDecode : Obligations.ExampleWordsDecode :=
  ⟨decode_encode (.wrr 0x00 100), decode_encode (.ldw 11), decode_encode (.xform 48), decode_encode (.wrr 0x14 31),
    decode_encode (.rdr 0x05), rfl⟩

/-- Settles O45, command by command along each expansion. -/
theorem pseudoCommandsDoWhatTheyName : Obligations.PseudoCommandsDoWhatTheyName := by
  intro s pv otid w
  refine ⟨runListing_wrr_pv_otid s pv otid, runListing_wrr_pv_otid s w 0, ?_, ?_⟩
  · have hivw := runListing_cons (exec_wrr_ivw s w) [.unpack]
    have hunpack := runListing_cons (exec_unpack ((s.setIvw w).respond 0)) []
    exact ⟨_, hivw.trans (hunpack.trans (runListing_nil _)), rfl, rfl, rfl, rfl, rfl, rfl⟩
  · have hclear := runListing_clear_fields (List.finRange 8) s
    rwa [← expandPseudo_clrf, clear_all_fields] at hclear

end Sys2Proof.Machine
end

section
/-! SUPPORT. The host access commands at the command port (spec/40_host_access.md R50 to R56): the register map as a list,
the writable indices, a byte store, the bytes of a stored word, and the words whose reserved fields are not zero. -/

namespace Sys2Proof.Machine

/-! ### The register map -/

/-- The registers and views in the order of their indices (10_state.md R18). -/
def Reg.inOrder : List Reg := [.pv, .otid, .key, .ivw, .err] ++ (List.finRange 8).map .field

/-- The thirteen indices of R51, each with the register or view that it names. -/
theorem readReg_inOrder (s : State) :
    Reg.inOrder.map (fun reg => (reg.index, readReg s reg)) =
      [((0x00 : Index), s.pv), (0x01, s.otid), (0x02, s.otid ^^^ s.pv), (0x03, s.ivw), (0x04, s.err.setWidth 32),
        (0x10, s.f.f0.setWidth 32), (0x11, s.f.f1.setWidth 32), (0x12, s.f.f2.setWidth 32), (0x13, s.f.f3.setWidth 32),
        (0x14, s.f.f4.setWidth 32), (0x15, s.f.f5.setWidth 32), (0x16, s.f.f6.setWidth 32),
        (0x17, s.f.f7.setWidth 32)] := rfl

/-- The eight field indices of R52, each with the largest value that fits and the field registers after the write. -/
theorem setField_inOrder (f : Fields) (d : Word) :
    (List.finRange 8).map (fun j => ((Reg.field j).index, 2 ^ fieldWidth j - 1, setField f j d)) =
      [((0x10 : Index), 31, { f with f0 := d.setWidth 5 }), (0x11, 31, { f with f1 := d.setWidth 5 }),
        (0x12, 31, { f with f2 := d.setWidth 5 }), (0x13, 31, { f with f3 := d.setWidth 5 }),
        (0x14, 31, { f with f4 := d.setWidth 5 }), (0x15, 31, { f with f5 := d.setWidth 5 }),
        (0x16, 1, { f with f6 := d.setWidth 1 }), (0x17, 1, { f with f7 := d.setWidth 1 })] := rfl

theorem writable_iff_mem (r : Index) :
    Index.writable r = true ↔ r.toNat ∈ [0x00, 0x01, 0x03, 0x10, 0x11, 0x12, 0x13, 0x14, 0x15, 0x16, 0x17] := by
  rw [writable_eq_true_iff, readable_eq_true_iff]
  simp only [List.mem_cons, List.not_mem_nil, or_false]
  omega

section
variable (s : State)

theorem exec_wrr_field_wide {j : Fin 8} {d : Word} (hd : ¬d.toNat < 2 ^ fieldWidth j) :
    exec (.wrr (Reg.field j).index d) s = .next (raiseFault .range s) :=
  execWrr_of_error (regOf_index (.field j)) (if_neg hd)

theorem exec_wrr_of_not_writable {r : Index} (h : Index.writable r = false) (d : Word) :
    exec (.wrr r d) s = .next (raiseFault .illegal s) := by
  have hcause : operandFault (.wrr r d) = .illegal := by simp [operandFault, h]
  have hexec := exec_of_not_wellFormed s (i := .wrr r d) (by simp [Instr.wellFormed, h])
  rwa [hcause] at hexec

/-! ### A byte store -/

theorem exec_stb {a : Index} {d : Word} (ha : a.toNat < Config.bufBytes) (hd : d.toNat ≤ 0xFF) :
    exec (.stb a d) s = .next ((s.setBuf (writeByte s.buf a.toNat (d.setWidth 8))).respond 0) := by
  obtain ⟨_, _, hc, hexec⟩ := exec_of_wellFormed s (i := .stb a d) (by simp [Instr.wellFormed, ha, hd])
  cases hc
  exact hexec

end

/-- Data of one byte loses nothing when it is narrowed to the byte that `STB` stores. -/
theorem setWidth_byte_toNat {d : Word} (hd : d.toNat ≤ 0xFF) : (d.setWidth 8).toNat = d.toNat := by
  rw [BitVec.toNat_setWidth]
  omega

/-! ### The bytes of a stored word -/

section
variable {m : Buffer} {a : Nat}

theorem readByte_writeWord_inside (hm : Buffer.wf m) (ha : a + 3 < Config.bufBytes) (v : Word) {j : Nat} (hj : j < 4) :
    readByte (writeWord m a v) (a + j) = byteOf v j := by
  rw [readByte_writeWord hm ha, if_pos (by omega), Nat.add_sub_cancel_left]

/-- A byte read after a word write, address by address (20_memory.md R27). -/
theorem readByte_writeWord_cases (hm : Buffer.wf m) (ha : a + 3 < Config.bufBytes) (v : Word) (b : Nat) :
    readByte (writeWord m a v) b =
      if b = a then v.extractLsb' 0 8
      else if b = a + 1 then v.extractLsb' 8 8
      else if b = a + 2 then v.extractLsb' 16 8
      else if b = a + 3 then v.extractLsb' 24 8
      else readByte m b := by
  split_ifs with h0 h1 h2 h3
  · exact h0 ▸ readByte_writeWord_inside hm ha v (j := 0) (by decide)
  · exact h1 ▸ readByte_writeWord_inside hm ha v (j := 1) (by decide)
  · exact h2 ▸ readByte_writeWord_inside hm ha v (j := 2) (by decide)
  · exact h3 ▸ readByte_writeWord_inside hm ha v (j := 3) (by decide)
  · rw [readByte_writeWord hm ha, if_neg (by omega)]

end

/-! ### Reserved fields that are not zero -/

section
variable {op : BitVec 8} {idx : Index} {data : Word} {i : Instr}

/-- A word of a command with no `data` operand is refused when its `data` is not 0 (30_encoding.md R44). -/
theorem executeWord_of_noData (s : State) (h : decode (commandWord op idx data) = noData data i) (hdata : data ≠ 0) :
    executeWord (commandWord op idx data) s = .next (raiseFault .illegal s) :=
  executeWord_of_decode_error (h.trans (if_pos hdata))

/-- A word of a command with neither operand is refused when `idx` or `data` is not 0 (30_encoding.md R44). -/
theorem executeWord_of_noOperands (s : State) (h : decode (commandWord op idx data) = noOperands idx data i)
    (hfields : idx ≠ 0 ∨ data ≠ 0) :
    executeWord (commandWord op idx data) s = .next (raiseFault .illegal s) := by
  by_cases hidx : idx = 0
  · have hdata : data ≠ 0 := hfields.resolve_left (not_not.2 hidx)
    exact executeWord_of_noData s (h.trans (if_neg (not_not.2 hidx))) hdata
  · exact executeWord_of_decode_error (h.trans (if_pos hidx))

end

end Sys2Proof.Machine
end

section
/-! The statements of spec/40_host_access.md: what each of the seven host access commands answers, changes and leaves. -/

namespace Sys2Proof.Machine

/-- Settles O4: the thirteen indices are those of the register map, and an index outside it is not legal. -/
theorem rdrAnswersTheNamedRegister : Obligations.RdrAnswersTheNamedRegister := by
  intro s r
  refine ⟨?_, fun hr => ?_, rfl, fun data => executeWord_of_noData s (decode_commandWord 0x01 r data)⟩
  · rw [← readReg_inOrder, List.forall_mem_map]
    exact fun reg _ => exec_rdr_index s reg rfl
  · have hw : (Instr.rdr r).wellFormed = false := Bool.eq_false_iff.2 ((readable_eq_true_iff r).not.2 hr)
    exact exec_of_not_wellFormed s hw

/-- Settles O5: a field register takes a value up to its largest, and the other indices are those that are not writable. -/
theorem wrrWritesExactlyTheNamedRegister : Obligations.WrrWritesExactlyTheNamedRegister := by
  intro s r d
  refine ⟨exec_wrr_pv s d, exec_wrr_otid s d, exec_wrr_ivw s d, ?_, fun hr => ?_, rfl⟩
  · rw [← setField_inOrder, List.forall_mem_map]
    intro j _
    have hfits : d.toNat ≤ 2 ^ fieldWidth j - 1 ↔ d.toNat < 2 ^ fieldWidth j :=
      Nat.le_sub_one_iff_lt (Nat.two_pow_pos _)
    split_ifs with hd
    · exact exec_wrr_field s d j (hfits.1 hd)
    · exact exec_wrr_field_wide s (hfits.not.1 hd)
  · exact exec_wrr_of_not_writable s (Bool.eq_false_iff.2 ((writable_iff_mem r).not.2 hr)) d

/-- Settles O7, by a read after the write of the one byte. -/
theorem stbStoresOneByte : Obligations.StbStoresOneByte := by
  intro s a d hm
  refine ⟨?_, rfl⟩
  split_ifs with h
  · obtain ⟨ha, hd⟩ := h
    refine ⟨_, exec_stb s ha hd, wf_writeByte hm ha _, fun b => ?_⟩
    rw [readByte_writeByte hm, apply_ite BitVec.toNat, setWidth_byte_toNat hd]
  · have hw : (Instr.stb a d).wellFormed = false := by simpa [Instr.wellFormed] using h
    exact exec_of_not_wellFormed s hw

/-- Settles O8: the word read is the little-endian sum of its four bytes (`wordOf_toNat`). -/
theorem ldwAnswersTheLittleEndianWord : Obligations.LdwAnswersTheLittleEndianWord := by
  intro s n
  refine ⟨?_, rfl, fun data => executeWord_of_noData s (decode_commandWord 0x05 n data)⟩
  split_ifs with hn
  · exact ⟨_, exec_ldw s hn, wordOf_toNat ..⟩
  · exact exec_of_not_wellFormed s (i := .ldw n) (decide_eq_false hn)

/-- Settles O9: the word write changes its four bytes, and the load reads the word back. -/
theorem stwStoresFourBytes : Obligations.StwStoresFourBytes := by
  intro s n d hm
  refine ⟨?_, rfl⟩
  split_ifs with hn
  · have hend := wordEnd_lt hn
    refine ⟨_, exec_stw s hn d, wf_writeWord hm hend d, readByte_writeWord_cases hm hend d, ?_⟩
    rw [exec_ldw _ hn, readWord_writeWord hm hend]
    rfl
  · exact exec_of_not_wellFormed s (i := .stw n d) (decide_eq_false hn)

/-- Settles O3: `NOP` has neither operand, so both fields of its word are reserved. -/
theorem nopAnswersZeroAndChangesNothing : Obligations.NopAnswersZeroAndChangesNothing :=
  ⟨rfl, fun s => ⟨rfl, fun idx data => executeWord_of_noOperands s (decode_commandWord 0x00 idx data)⟩⟩

/-- Settles O6: after reset no byte is listed, so each reads 0. -/
theorem ldbAnswersTheByteZeroExtended : Obligations.LdbAnswersTheByteZeroExtended := by
  intro s a
  refine ⟨?_, fun ha => exec_ldb State.reset ha, rfl,
    fun data => executeWord_of_noData s (decode_commandWord 0x03 a data)⟩
  split_ifs with ha
  · rw [BitVec.ofNat_toNat]
    exact exec_ldb s ha
  · exact exec_of_not_wellFormed s (i := .ldb a) (decide_eq_false ha)

end Sys2Proof.Machine
end

section
/-! SUPPORT. The bit-field packer and unpacker (spec/41_bitcontainer.md R58 to R60): the fields are quotients and remainders
of the packed word, the word is the sum of the fields in their places, and a field has no bit outside its place. -/

namespace Sys2Proof.Machine

/-! ### The two functions in numbers -/

/-- A narrowed shift to the right is a quotient and a remainder (41_bitcontainer.md R59). -/
theorem shiftRight_setWidth_toNat {n : Nat} (w : BitVec n) (off wid : Nat) :
    ((w >>> off).setWidth wid).toNat = w.toNat / 2 ^ off % 2 ^ wid := by
  rw [BitVec.toNat_setWidth, BitVec.toNat_ushiftRight, Nat.shiftRight_eq_div_pow]

section
variable (w : Word)

theorem bitDecode_f0_toNat : (bitDecode w).f0.toNat = w.toNat / 2 ^ 0 % 2 ^ 5 := shiftRight_setWidth_toNat ..

theorem bitDecode_f1_toNat : (bitDecode w).f1.toNat = w.toNat / 2 ^ 5 % 2 ^ 5 := shiftRight_setWidth_toNat ..

theorem bitDecode_f2_toNat : (bitDecode w).f2.toNat = w.toNat / 2 ^ 10 % 2 ^ 5 := shiftRight_setWidth_toNat ..

theorem bitDecode_f3_toNat : (bitDecode w).f3.toNat = w.toNat / 2 ^ 15 % 2 ^ 5 := shiftRight_setWidth_toNat ..

theorem bitDecode_f4_toNat : (bitDecode w).f4.toNat = w.toNat / 2 ^ 20 % 2 ^ 5 := shiftRight_setWidth_toNat ..

theorem bitDecode_f5_toNat : (bitDecode w).f5.toNat = w.toNat / 2 ^ 25 % 2 ^ 5 := shiftRight_setWidth_toNat ..

theorem bitDecode_f6_toNat : (bitDecode w).f6.toNat = w.toNat / 2 ^ 30 % 2 ^ 1 := shiftRight_setWidth_toNat ..

theorem bitDecode_f7_toNat : (bitDecode w).f7.toNat = w.toNat / 2 ^ 31 % 2 ^ 1 := shiftRight_setWidth_toNat ..

end

/-- The fields tile the word, so the OR of R60 is the sum of the fields in their places. -/
theorem bitEncode_toNat (f : Fields) :
    (bitEncode f).toNat = f.f0.toNat + 2 ^ 5 * f.f1.toNat + 2 ^ 10 * f.f2.toNat + 2 ^ 15 * f.f3.toNat +
      2 ^ 20 * f.f4.toNat + 2 ^ 25 * f.f5.toNat + 2 ^ 30 * f.f6.toNat + 2 ^ 31 * f.f7.toNat := by
  have := f.f0.isLt
  have := f.f1.isLt
  have := f.f2.isLt
  have := f.f3.isLt
  have := f.f4.isLt
  have := f.f5.isLt
  have := f.f6.isLt
  have hplaces : (bitEncode f).toNat =
      f.f0.toNat <<< 0 ||| f.f1.toNat <<< 5 ||| f.f2.toNat <<< 10 ||| f.f3.toNat <<< 15 ||| f.f4.toNat <<< 20 |||
        f.f5.toNat <<< 25 ||| f.f6.toNat <<< 30 ||| f.f7.toNat <<< 31 := by
    simp only [bitEncode, placeField, getField, fieldOffset, BitVec.toNat_or, setWidth_shiftLeft_toNat, Nat.reduceAdd,
      Nat.reduceLeDiff]
  rw [hplaces, Nat.shiftLeft_zero, or_shiftLeft_eq_add f.f1.toNat (by omega), or_shiftLeft_eq_add f.f2.toNat (by omega),
    or_shiftLeft_eq_add f.f3.toNat (by omega), or_shiftLeft_eq_add f.f4.toNat (by omega),
    or_shiftLeft_eq_add f.f5.toNat (by omega), or_shiftLeft_eq_add f.f6.toNat (by omega),
    or_shiftLeft_eq_add f.f7.toNat (by omega)]

/-! ### The two functions are inverse -/

theorem fields_eq_of_toNat {f g : Fields} (h0 : f.f0.toNat = g.f0.toNat) (h1 : f.f1.toNat = g.f1.toNat)
    (h2 : f.f2.toNat = g.f2.toNat) (h3 : f.f3.toNat = g.f3.toNat) (h4 : f.f4.toNat = g.f4.toNat)
    (h5 : f.f5.toNat = g.f5.toNat) (h6 : f.f6.toNat = g.f6.toNat) (h7 : f.f7.toNat = g.f7.toNat) : f = g := by
  cases f
  cases g
  simp only [Fields.mk.injEq]
  exact ⟨BitVec.eq_of_toNat_eq h0, BitVec.eq_of_toNat_eq h1, BitVec.eq_of_toNat_eq h2, BitVec.eq_of_toNat_eq h3,
    BitVec.eq_of_toNat_eq h4, BitVec.eq_of_toNat_eq h5, BitVec.eq_of_toNat_eq h6, BitVec.eq_of_toNat_eq h7⟩

/-- A word is the sum of its digits at the places of the fields. -/
@[simp] theorem bitEncode_bitDecode (w : Word) : bitEncode (bitDecode w) = w := by
  apply BitVec.eq_of_toNat_eq
  have := w.isLt
  rw [bitEncode_toNat, bitDecode_f0_toNat, bitDecode_f1_toNat, bitDecode_f2_toNat, bitDecode_f3_toNat, bitDecode_f4_toNat,
    bitDecode_f5_toNat, bitDecode_f6_toNat, bitDecode_f7_toNat]
  omega

/-- Each digit of the sum is its field, because every field is below the power of two of its width. -/
@[simp] theorem bitDecode_bitEncode (f : Fields) : bitDecode (bitEncode f) = f := by
  have := f.f0.isLt
  have := f.f1.isLt
  have := f.f2.isLt
  have := f.f3.isLt
  have := f.f4.isLt
  have := f.f5.isLt
  have := f.f6.isLt
  have := f.f7.isLt
  apply fields_eq_of_toNat
  all_goals
    simp only [bitDecode_f0_toNat, bitDecode_f1_toNat, bitDecode_f2_toNat, bitDecode_f3_toNat, bitDecode_f4_toNat,
      bitDecode_f5_toNat, bitDecode_f6_toNat, bitDecode_f7_toNat, bitEncode_toNat]
    omega

/-! ### The lanes -/

theorem setWidth_toNat_lt {k : Nat} (x : BitVec k) (n : Nat) : (x.setWidth n).toNat < 2 ^ k := by
  rw [BitVec.toNat_setWidth]
  exact (Nat.mod_le _ _).trans_lt x.isLt

/-- What a field register reads as is below the power of two of its width. -/
theorem getField_toNat_lt (f : Fields) (i : Fin 8) : (getField f i).toNat < 2 ^ fieldWidth i := by
  fin_cases i <;> exact setWidth_toNat_lt _ 32

/-- A field in its place has no bit outside it. -/
theorem placeField_getLsbD_outside (f : Fields) {i : Fin 8} {b : Nat}
    (hb : ¬(fieldOffset i ≤ b ∧ b < fieldOffset i + fieldWidth i)) : (placeField f i).getLsbD b = false := by
  rw [placeField, BitVec.getLsbD_shiftLeft]
  by_cases hlow : b < fieldOffset i
  · simp [hlow]
  · have hhigh : (getField f i).getLsbD (b - fieldOffset i) = false :=
      Nat.testBit_lt_two_pow ((getField_toNat_lt f i).trans_le (Nat.pow_le_pow_right (by decide) (by omega)))
    rw [hhigh, Bool.and_false]

/-- The other fields stay in their places when one is written. -/
theorem placeField_setField_other (f : Fields) {i j : Fin 8} (h : j ≠ i) (d : Word) :
    placeField (setField f i d) j = placeField f j := by
  rw [placeField, placeField, getField_setField_other f h]

theorem placeField_setField_getLsbD_outside (f : Fields) {i : Fin 8} (d : Word) {b : Nat}
    (hb : ¬(fieldOffset i ≤ b ∧ b < fieldOffset i + fieldWidth i)) (j : Fin 8) :
    (placeField (setField f i d) j).getLsbD b = (placeField f j).getLsbD b := by
  by_cases hj : j = i
  · subst hj
    rw [placeField_getLsbD_outside _ hb, placeField_getLsbD_outside _ hb]
  · rw [placeField_setField_other f hj]

/-- Writing one field changes no bit of the packed word outside that field's place (41_bitcontainer.md R63). -/
theorem bitEncode_setField_getLsbD_outside (f : Fields) {i : Fin 8} (d : Word) {b : Nat}
    (hb : ¬(fieldOffset i ≤ b ∧ b < fieldOffset i + fieldWidth i)) :
    (bitEncode (setField f i d)).getLsbD b = (bitEncode f).getLsbD b := by
  simp only [bitEncode, BitVec.getLsbD_or, placeField_setField_getLsbD_outside f d hb]

/-! ### The two commands -/

theorem exec_pack (s : State) : exec .pack s = .next ((s.setIvw (bitEncode s.f)).respond 0) := rfl

end Sys2Proof.Machine
end

section
/-! The statements of spec/41_bitcontainer.md: what `UNPACK` and `PACK` answer, change and leave, and that they are inverse. -/

namespace Sys2Proof.Machine

/-- Settles O14: each command is its function, and the fields of a packed word are its disjoint lanes. -/
theorem bitContainerRoundTrip : Obligations.BitContainerRoundTrip := by
  refine ⟨bitEncode_bitDecode, bitDecode_bitEncode, fun s => ⟨_, _, exec_unpack s, exec_pack _, ?_⟩,
    fun s => ⟨_, _, exec_pack s, exec_unpack _, ?_⟩, fun f i d b => bitEncode_setField_getLsbD_outside f d⟩
  · exact bitEncode_bitDecode s.ivw
  · exact bitDecode_bitEncode s.f

/-- Settles O12, by the fields of `BitDecode`: the lowest has nothing below it and the highest nothing above. -/
theorem unpackDecodesIvw : Obligations.UnpackDecodesIvw := by
  refine ⟨rfl, fun s => ⟨?_, fun idx data => executeWord_of_noOperands s (decode_commandWord 0x10 idx data)⟩⟩
  have := s.ivw.isLt
  refine ⟨_, exec_unpack s, ?_, bitDecode_f1_toNat _, bitDecode_f2_toNat _, bitDecode_f3_toNat _, bitDecode_f4_toNat _,
    bitDecode_f5_toNat _, bitDecode_f6_toNat _, ?_⟩
  · rw [bitDecode_f0_toNat]
    omega
  · rw [bitDecode_f7_toNat]
    omega

/-- Settles O13, by the sum that `BitEncode` is. -/
theorem packEncodesTheFields : Obligations.PackEncodesTheFields :=
  ⟨rfl, fun s => ⟨⟨_, exec_pack s, bitEncode_toNat s.f⟩,
    fun idx data => executeWord_of_noOperands s (decode_commandWord 0x11 idx data)⟩⟩

end Sys2Proof.Machine
end

section
/-! SUPPORT. The XOR engine (spec/42_cipher.md R64 to R69): the transform loop word by word, the loop as an action of the
keys under XOR, and what `XFORM` leaves in a word of the buffer. -/

namespace Sys2Proof.Machine

/-! ### Bytes and words under XOR -/

/-- Words with the same four bytes are the same word. -/
theorem word_ext {v w : Word} (h : ∀ j < 4, byteOf v j = byteOf w j) : v = w := by
  rw [← wordOf_byteOf v, ← wordOf_byteOf w, h 0 (by decide), h 1 (by decide), h 2 (by decide), h 3 (by decide)]

@[simp] theorem byteOf_zero (j : Nat) : byteOf 0 j = 0#8 := BitVec.extractLsb'_zero

/-! ### The transform loop -/

section
variable {m : Buffer} {count : Nat}

/-- Each of the first `count` words is XORed with the key (42_cipher.md R67). -/
theorem readWord_xformWords (hm : Buffer.wf m) (k : Word) (h : 4 * count ≤ Config.bufBytes) {i : Nat} (hi : i < count) :
    readWord (xformWords k count m) (4 * i) = readWord m (4 * i) ^^^ k := by
  refine word_ext fun j hj => ?_
  have hplace : (4 * i + j) % 4 = j := by omega
  rw [byteOf_readWord _ _ hj, readByte_xformWords hm k h, if_pos (by omega), hplace, byteOf_xor, byteOf_readWord _ _ hj]

/-- A transform after a transform is the one under the XOR of the keys (42_cipher.md R68). -/
theorem xformWords_xformWords (hm : Buffer.wf m) (k k' : Word) (h : 4 * count ≤ Config.bufBytes) :
    xformWords k' count (xformWords k count m) = xformWords (k ^^^ k') count m := by
  have hk := wf_xformWords hm k h
  refine buffer_ext (wf_xformWords hk k' h) (wf_xformWords hm _ h) fun a => ?_
  rw [readByte_xformWords hk k' h, readByte_xformWords hm k h, readByte_xformWords hm _ h, byteOf_xor]
  split_ifs
  · exact BitVec.xor_assoc ..
  · rfl

/-- The key 0 leaves the buffer as it is. -/
theorem xformWords_zero (hm : Buffer.wf m) (h : 4 * count ≤ Config.bufBytes) : xformWords 0 count m = m := by
  refine buffer_ext (wf_xformWords hm 0 h) hm fun a => ?_
  rw [readByte_xformWords hm 0 h, byteOf_zero, BitVec.xor_zero, ite_self]

end

/-! ### The command -/

/-- The words of a legal length lie in the buffer. -/
theorem wordCount_le {n : Nat} (hle : n ≤ Config.bufBytes) : 4 * (n / 4) ≤ Config.bufBytes :=
  (Nat.mul_div_le n 4).trans hle

section
variable {s t u : State} {n v : Word}

theorem exec_xform (s : State) (hmod : n.toNat % 4 = 0) (hle : n.toNat ≤ Config.bufBytes) :
    exec (.xform n) s = .next ((s.setBuf (xformWords s.key (n.toNat / 4) s.buf)).respond 0) := by
  obtain ⟨_, _, hc, hexec⟩ := exec_of_wellFormed s (i := .xform n) (by simp [Instr.wellFormed, hmod, hle])
  cases hc
  exact hexec

/-- A length that is no multiple of 4 is the first fault of R67, whatever its size. -/
theorem exec_xform_unaligned (s : State) (hmod : n.toNat % 4 ≠ 0) : exec (.xform n) s = .next (raiseFault .align s) := by
  have hcause : operandFault (.xform n) = .align := if_neg hmod
  have hexec := exec_of_not_wellFormed s (i := .xform n) (by simp [Instr.wellFormed, hmod])
  rwa [hcause] at hexec

theorem exec_xform_tooLong (s : State) (hmod : n.toNat % 4 = 0) (hlong : Config.bufBytes < n.toNat) :
    exec (.xform n) s = .next (raiseFault .range s) := by
  have hcause : operandFault (.xform n) = .range := if_pos hmod
  have hexec := exec_of_not_wellFormed s (i := .xform n) (by simp [Instr.wellFormed, hlong])
  rwa [hcause] at hexec

theorem Completes.word_of_xform (h : Completes s (.xform n) v u) (hm : Buffer.wf s.buf) {i : Nat}
    (hi : 4 * i < n.toNat) : readWord u.buf (4 * i) = readWord s.buf (4 * i) ^^^ s.key := by
  cases h with
  | xform hmod hle => exact readWord_xformWords hm _ (wordCount_le hle) (by omega)

/-- A word inside the length after `XFORM`, completed or faulted, is a function of the word, the key and the length. -/
theorem readWord_of_exec_xform (h : exec (.xform n) s = .next t) (hm : Buffer.wf s.buf) {i : Nat}
    (hi : 4 * i < n.toNat) :
    readWord t.buf (4 * i) =
      if (Instr.xform n).wellFormed then readWord s.buf (4 * i) ^^^ s.key else readWord s.buf (4 * i) := by
  rcases exec_cases h with ⟨v, u, hc, rfl⟩ | ⟨hw, c, rfl⟩
  · rw [if_pos hc.wellFormed]
    exact hc.word_of_xform hm hi
  · rw [hw]
    rfl

end

end Sys2Proof.Machine
end

section
/-! The statements of spec/42_cipher.md: what `XFORM` changes and leaves, word by word and byte by byte, that it is an
involution under one key, and that its words are independent. -/

namespace Sys2Proof.Machine

/-- Settles O17: both runs are one transform under the XOR of the keys, and two equal keys cancel. -/
theorem xformIsAnInvolution : Obligations.XformIsAnInvolution := by
  intro s n pv otid hm hmod hle
  have hcount := wordCount_le hle
  have htwice := xformWords_xformWords hm s.key (keyOf otid pv) hcount
  refine ⟨_, _, _, exec_xform s hmod hle, exec_xform _ hmod hle, exec_xform _ hmod hle, ?_, fun hsame => ?_⟩
  · have hkey : keyOf 0 ((s.otid ^^^ s.pv) ^^^ (otid ^^^ pv)) = s.key ^^^ keyOf otid pv := BitVec.zero_xor
    exact htwice.trans (congrArg (xformWords · (n.toNat / 4) s.buf) hkey.symm)
  · have hcancel : s.key ^^^ keyOf otid pv = 0 := (congrArg (s.key ^^^ ·) hsame).trans BitVec.xor_self
    rw [hcancel, xformWords_zero hm hcount] at htwice
    exact htwice

/-- Settles O15: the checks of R67 in their order, then the loop word by word and the bytes it does not reach. -/
theorem xformXorsTheFirstBytes : Obligations.XformXorsTheFirstBytes := by
  intro s n hm
  refine ⟨?_, rfl, fun idx hidx => executeWord_of_decode_error ((decode_commandWord 0x20 idx n).trans (if_pos hidx))⟩
  split_ifs with hmod hlong
  · exact exec_xform_unaligned s hmod
  · exact exec_xform_tooLong s (not_not.1 hmod) hlong
  · have hcount := wordCount_le (not_lt.1 hlong)
    refine ⟨_, exec_xform s (not_not.1 hmod) (not_lt.1 hlong), wf_xformWords hm s.key hcount,
      fun i hi => readWord_xformWords hm s.key hcount hi, fun a ha => ?_⟩
    rw [readByte_xformWords hm s.key hcount, if_neg (by omega)]

/-- Settles O16, by the byte law of the loop. -/
theorem xformXorsEachByteWithItsKeyByte : Obligations.XformXorsEachByteWithItsKeyByte := by
  intro s n hm hmod hle
  refine ⟨_, exec_xform s hmod hle, fun a ha => ?_⟩
  have hbyte := readByte_xformWords hm s.key (wordCount_le hle) a
  rw [if_pos (by omega)] at hbyte
  calc (readByte (xformWords s.key (n.toNat / 4) s.buf) a).toNat
      = (readByte s.buf a).toNat ^^^ (byteOf s.key (a % 4)).toNat := by rw [hbyte, BitVec.toNat_xor]
    _ = _ := by rw [byteOf_toNat, State.key, keyOf]

/-- Settles O18: the result word is a function of the word, the key and the length (`readWord_of_exec_xform`). -/
theorem xformLanesAreIndependent : Obligations.XformLanesAreIndependent := by
  intro s t s' t' n i hs ht hi hkey hword hexecs hexect
  have hkey : s.key = t.key := hkey
  rw [readWord_of_exec_xform hexecs hs hi, readWord_of_exec_xform hexect ht hi, hkey, hword]

end Sys2Proof.Machine
end

section
/-! SUPPORT. The order selector (spec/43_order_selector.md R71 to R76): an order's code and the `ORDER` response as the
concatenation of their fields, the four fields of a code, and the codes of the default table. -/

namespace Sys2Proof.Machine

/-- The value of a concatenation, the high part counted in units of the low part's range. -/
theorem toNat_append_eq_add {m n : Nat} (hi : BitVec m) (lo : BitVec n) :
    (hi ++ lo).toNat = 2 ^ n * hi.toNat + lo.toNat := by
  rw [BitVec.toNat_append, ← Nat.shiftLeft_add_eq_or_of_lt lo.isLt, Nat.shiftLeft_eq, Nat.mul_comm]

/-! ### The code of an order -/

theorem typeCode_injective : Function.Injective typeCode := by
  intro a b
  cases a <;> cases b <;> decide

/-- Each of the four types stands at one position of an order (R71, R72). -/
theorem orderTypes_nodup (o : Order) :
    [(orderTypes o).1, (orderTypes o).2.1, (orderTypes o).2.2.1, (orderTypes o).2.2.2].Nodup := by
  cases o <;> decide

/-- The sum of R72 does not overflow the 8 bits. -/
theorem ordCode_toNat (t : SubType × SubType × SubType × SubType) :
    (ordCode t).toNat = (typeCode t.1).toNat + 4 * (typeCode t.2.1).toNat + 16 * (typeCode t.2.2.1).toNat +
      64 * (typeCode t.2.2.2).toNat := by
  have h0 := (typeCode t.1).isLt
  have h1 := (typeCode t.2.1).isLt
  have h2 := (typeCode t.2.2.1).isLt
  have h3 := (typeCode t.2.2.2).isLt
  rw [ordCode, BitVec.toNat_ofNat]
  omega

/-- Position 0 in bits 1:0, position 3 in bits 7:6 (R72). -/
theorem ordCode_eq_append (t : SubType × SubType × SubType × SubType) :
    ordCode t = typeCode t.2.2.2 ++ typeCode t.2.2.1 ++ typeCode t.2.1 ++ typeCode t.1 := by
  apply BitVec.eq_of_toNat_eq
  rw [ordCode_toNat, toNat_append_eq_add, toNat_append_eq_add, toNat_append_eq_add]
  omega

/-- The fields `T0` to `T3` of a code or of a response (R75). -/
def orderFields {w : Nat} (v : BitVec w) : List (BitVec 2) :=
  [v.extractLsb' 0 2, v.extractLsb' 2 2, v.extractLsb' 4 2, v.extractLsb' 6 2]

/-- What stands above bit 7 is in none of the four fields. -/
theorem orderFields_append {m : Nat} (hi : BitVec m) (c : BitVec 8) : orderFields (hi ++ c) = orderFields c := by
  simp [orderFields, BitVec.extractLsb'_append_eq_of_add_le]

theorem orderFields_append_four (t3 t2 t1 t0 : BitVec 2) : orderFields (t3 ++ t2 ++ t1 ++ t0) = [t0, t1, t2, t3] := by
  simp [orderFields, BitVec.extractLsb'_append_eq_of_le, BitVec.extractLsb'_append_eq_of_add_le, -Nat.reduceAdd]

theorem orderFields_ordCode (t : SubType × SubType × SubType × SubType) :
    orderFields (ordCode t) = [t.1, t.2.1, t.2.2.1, t.2.2.2].map typeCode := by
  rw [ordCode_eq_append]
  exact orderFields_append_four ..

/-- The four fields of an order's code are pairwise different, as its types are. -/
theorem orderFields_ordCode_nodup (o : Order) : (orderFields (ordCode (orderTypes o))).Nodup := by
  rw [orderFields_ordCode]
  exact (orderTypes_nodup o).map typeCode_injective

/-! ### The codes of the default table -/

/-- The 24 codes as the table of R73 lists them. -/
def listedCodes : List (BitVec 8) :=
  [0xE4, 0xB4, 0xD8, 0x78, 0x9C, 0x6C, 0xE1, 0xB1, 0xC9, 0x39, 0x8D, 0x2D, 0xD2, 0x72, 0xC6, 0x36, 0x4E, 0x1E, 0x93,
    0x63, 0x87, 0x27, 0x4B, 0x1B]

theorem map_ordCode_defaultOrderTable :
    (List.finRange 24).map (fun i => ordCode (orderTypes (defaultOrderTable i))) = listedCodes := by decide

theorem listedCodes_nodup : listedCodes.Nodup := by decide

/-- The list leaves out no code whose fields are pairwise different: the search over all 256 values of R72. -/
theorem mem_listedCodes_of_nodup : ∀ c : BitVec 8, (orderFields c).Nodup → c ∈ listedCodes := by
  unfold orderFields
  decide

/-- A listed code is the code of an entry of the default table. -/
theorem exists_ordCode_eq_of_mem_listedCodes {c : BitVec 8} (h : c ∈ listedCodes) :
    ∃ i, ordCode (orderTypes (defaultOrderTable i)) = c := by
  rw [← map_ordCode_defaultOrderTable, List.mem_map] at h
  obtain ⟨i, -, hi⟩ := h
  exact ⟨i, hi⟩

/-! ### The response -/

section
variable (table : Fin 24 → Order)

/-- The response is the index in bits 31:8 above the code in bits 7:0 (R75). -/
theorem orderData_eq_append (pv : Word) :
    orderData table pv = BitVec.ofNat 24 (orderIndex pv).val ++ ordCode (orderTypes (table (orderIndex pv))) := by
  apply BitVec.eq_of_toNat_eq
  have hi := (orderIndex pv).isLt
  have hc := (ordCode (orderTypes (table (orderIndex pv)))).isLt
  rw [orderData, BitVec.toNat_or, BitVec.toNat_shiftLeft, BitVec.toNat_setWidth, BitVec.toNat_ofNat,
    BitVec.toNat_append, BitVec.toNat_ofNat, Nat.shiftLeft_eq, Nat.shiftLeft_eq]
  congr 1 <;> omega

theorem orderData_toNat (pv : Word) :
    (orderData table pv).toNat =
      256 * (orderIndex pv).val + (ordCode (orderTypes (table (orderIndex pv)))).toNat := by
  have hi := (orderIndex pv).isLt
  rw [orderData_eq_append, toNat_append_eq_add, BitVec.toNat_ofNat]
  omega

/-- The four fields of a response are those of the entry's code, so they are pairwise different (R76). -/
theorem orderFields_orderData_nodup (pv : Word) : (orderFields (orderData table pv)).Nodup := by
  have hfields : orderFields (orderData table pv) = orderFields (ordCode (orderTypes (table (orderIndex pv)))) := by
    rw [orderData_eq_append]
    exact orderFields_append ..
  rw [hfields]
  exact orderFields_ordCode_nodup _

/-- Bits 12:8 of the response are the index. -/
theorem orderData_index (pv : Word) : ((orderData table pv).extractLsb' 8 5).toNat = (orderIndex pv).val := by
  have hi := (orderIndex pv).isLt
  have hc := (ordCode (orderTypes (table (orderIndex pv)))).isLt
  rw [BitVec.extractLsb'_toNat, orderData_toNat, Nat.shiftRight_eq_div_pow]
  omega

/-- The response is a function of `PV mod 24` (R74). -/
theorem orderData_congr {pv pv' : Word} (h : pv.toNat % 24 = pv'.toNat % 24) :
    orderData table pv = orderData table pv' := by
  have hindex : orderIndex pv = orderIndex pv' := Fin.ext h
  rw [orderData, orderData, hindex]

end

theorem exec_order (s : State) : exec .order s = .next (answered s (orderData Config.orderTable s.pv)) := rfl

end Sys2Proof.Machine
end

section
/-! The statements of spec/43_order_selector.md: what `ORDER` answers, that every answer is a permutation, and which
codes there are. -/

namespace Sys2Proof.Machine

/-- Settles O20, by the response as index above code, and the code as the sum of R72. -/
theorem orderAnswersIndexAndCode : Obligations.OrderAnswersIndexAndCode := by
  refine ⟨rfl, fun s => ⟨⟨_, orderIndex s.pv, exec_order s, rfl, ?_⟩,
    fun idx data => executeWord_of_noOperands s (decode_commandWord 0x30 idx data)⟩⟩
  rw [orderData_toNat, ordCode_toNat]

/-- Settles O21: the fields are those of an order's code, and the rest of the response is the index. -/
theorem orderResponseIsAPermutation : Obligations.OrderResponseIsAPermutation := by
  intro s
  refine ⟨_, exec_order s, orderFields_orderData_nodup Config.orderTable s.pv, ?_, fun t ht => ?_⟩
  · rw [orderData_index]
    exact (orderIndex s.pv).isLt
  · rw [exec_order, orderData_congr _ ht]

/-- Settles O22: each code with pairwise different fields is in the list of R73, and so of an entry of that table. -/
theorem orderCodesAreThePermutations : Obligations.OrderCodesAreThePermutations := by
  refine fun c => ⟨?_, fun hfields => ?_⟩
  · rintro ⟨o, rfl⟩
    exact orderFields_ordCode_nodup o
  · obtain ⟨i, hi⟩ := exists_ordCode_eq_of_mem_listedCodes (mem_listedCodes_of_nodup c hfields)
    exact ⟨defaultOrderTable i, hi⟩

/-- Settles O23: equal entries have equal codes, and the 24 listed codes are pairwise different. -/
theorem defaultTableHasTheListedCodes : Obligations.DefaultTableHasTheListedCodes := by
  refine ⟨map_ordCode_defaultOrderTable, fun i j hij => ?_⟩
  have hnodup := listedCodes_nodup
  rw [← map_ordCode_defaultOrderTable] at hnodup
  exact List.inj_on_of_nodup_map hnodup (List.mem_finRange i) (List.mem_finRange j)
    (congrArg (fun o => ordCode (orderTypes o)) hij)

end Sys2Proof.Machine
end

section
/-! SUPPORT. Faults and `ERR` (spec/60_exceptions.md R83 to R85): the codes of the causes, the two ways in which a command
word is answered, that `ERR` sticks, and that no command but `RDR ERR` looks at it. -/

namespace Sys2Proof.Machine

theorem causeCode_mem (c : Cause) : causeCode c ∈ [(1 : BitVec 4), 2, 3] := by cases c <;> decide

/-! ### The two ways in which a command word is answered -/

section
variable {s t : State} {cw : CommandWord}

/-- If a command word is answered, its command completed, or the fault entry is all that happened. -/
theorem executeWord_completes_or_faults (h : executeWord cw s = .next t) :
    (∃ i v u, Completes s i v u ∧ t = u.respond v) ∨ ∃ c, t = raiseFault c s := by
  rcases executeWord_cases h with ⟨i, -, hexec⟩ | ⟨-, -, rfl⟩
  · rcases exec_cases hexec with ⟨v, u, hc, rfl⟩ | ⟨-, c, rfl⟩
    · exact .inl ⟨i, v, u, hc, rfl⟩
    · exact .inr ⟨c, rfl⟩
  · exact .inr ⟨.illegal, rfl⟩

/-- `ERR` keeps a value that is not 0 through every command word (60_exceptions.md R85). -/
theorem executeWord_err_of_ne_zero (h : executeWord cw s = .next t) (hs : s.err ≠ 0) : t.err = s.err := by
  rcases executeWord_completes_or_faults h with ⟨i, v, u, hc, rfl⟩ | ⟨c, rfl⟩
  · exact hc.err_eq
  · exact by_contra fun hne => hs (err_zero_of_latchErr_ne hne)

end

/-! ### A command in a state with another `ERR` -/

/-- `s` with the value `e` in `ERR`. -/
def State.withErr (s : State) (e : BitVec 4) : State := { s with err := e }

section
variable {s u : State} {i : Instr} {v : Word}

/-- No register but `ERR` shows what `ERR` holds. -/
theorem readReg_withErr (s : State) (e : BitVec 4) {reg : Reg} (h : reg ≠ .err) :
    readReg (s.withErr e) reg = readReg s reg := by
  cases reg with
  | err => exact absurd rfl h
  | _ => rfl

/-- A command that completes answers what `Completes` says of it. -/
theorem Completes.exec_eq (h : Completes s i v u) : exec i s = .next (u.respond v) := by
  cases h with
  | nop => rfl
  | rdr reg => exact exec_rdr_index s reg rfl
  | wrrPv d => exact exec_wrr_pv s d
  | wrrOtid d => exact exec_wrr_otid s d
  | wrrIvw d => exact exec_wrr_ivw s d
  | wrrField hd => exact exec_wrr_field s _ _ hd
  | ldb ha => exact exec_ldb s ha
  | stb ha hd => exact exec_stb s ha hd
  | ldw hn => exact exec_ldw s hn
  | stw hn => exact exec_stw s hn _
  | unpack => exact exec_unpack s
  | pack => exact exec_pack s
  | xform hmod hle => exact exec_xform s hmod hle
  | order => exact exec_order s

/-- A command other than `RDR ERR` completes from every value of `ERR` alike, and keeps it (60_exceptions.md R84). -/
theorem Completes.withErr (h : Completes s i v u) (hi : i ≠ .rdr Reg.err.index) (e : BitVec 4) :
    Completes (s.withErr e) i v (u.withErr e) := by
  cases h with
  | nop => exact .nop
  | rdr reg =>
    have hreg : reg ≠ .err := fun heq => hi (heq ▸ rfl)
    rw [← readReg_withErr s e hreg]
    exact .rdr reg
  | wrrPv d => exact .wrrPv d
  | wrrOtid d => exact .wrrOtid d
  | wrrIvw d => exact .wrrIvw d
  | wrrField hd => exact .wrrField hd
  | ldb ha => exact .ldb ha
  | stb ha hd => exact .stb ha hd
  | ldw hn => exact .ldw hn
  | stw hn => exact .stw hn
  | unpack => exact .unpack
  | pack => exact .pack
  | xform hmod hle => exact .xform hmod hle
  | order => exact .order

end

end Sys2Proof.Machine
end

section
/-! The statements of spec/60_exceptions.md: a command completes or faults precisely, it completes exactly when its operands
are legal, `ERR` sticks and masks nothing, and the idle block keeps its state. -/

namespace Sys2Proof.Machine

/-- Settles O31, by the two ways in which a command word is answered. -/
theorem commandsCompleteOrFaultPrecisely : Obligations.CommandsCompleteOrFaultPrecisely := by
  intro cw s
  obtain ⟨t, r, hexec, hport, -⟩ := (executeWord_answersFromBlock s cw).answers_once
  rcases executeWord_completes_or_faults hexec with ⟨i, v, u, hc, rfl⟩ | ⟨c, rfl⟩
  · refine .inl ⟨_, v, hexec, hc.err_eq, hport, ?_⟩
    rw [respond_responses, hc.responses_eq]
  · exact .inr ⟨causeCode c, causeCode_mem c, hexec⟩

/-- Settles O32: the error field is what the checks of 30_encoding.md R46 give, and that is 0 on legal operands. -/
theorem completesIffWellFormed : Obligations.CompletesIffWellFormed := by
  intro i s
  obtain ⟨t, r, hexec, hresponses, herr, -, hcompletes⟩ := exec_answers_checkOrder i s
  refine ⟨t, r, hexec, hresponses, fun hr => (hcompletes hr).2, fun hw => ?_⟩
  rw [herr, checkOrder_encode, if_pos hw]

/-- Settles O33, by what a step can do: it idles, runs a command word, or resets. -/
theorem errIsSticky : Obligations.ErrIsSticky := by
  intro s t hs hstep
  rcases step_cases hstep with ⟨-, rfl⟩ | ⟨cw, rest, -, hexec⟩ | ⟨rest, hport, rfl⟩ | ⟨cw, rest, hport, rfl⟩
  · exact .inl rfl
  · exact .inl (executeWord_err_of_ne_zero (s := s.withPort rest) hexec hs)
  · exact .inr ⟨rfl, rest, .inl hport⟩
  · exact .inr ⟨rfl, rest, .inr ⟨cw, hport⟩⟩

/-- Settles O34: legal operands are legal whatever `ERR` holds, and then the command completes alike (`Completes.withErr`);
others take the same fault. -/
theorem errMasksNothing : Obligations.ErrMasksNothing := by
  intro i s e hi
  cases hw : i.wellFormed with
  | true =>
    obtain ⟨v, u, hc, hexec⟩ := exec_of_wellFormed s hw
    exact ⟨_, _, hexec, (hc.withErr hi e).exec_eq, rfl⟩
  | false => exact ⟨_, _, exec_of_not_wellFormed s hw, exec_of_not_wellFormed (s.withErr e) hw, rfl⟩

/-- Settles O38, by the first arm of `step`. -/
theorem idleBlockKeepsItsState : Obligations.IdleBlockKeepsItsState := fun _ => step_of_idle

end Sys2Proof.Machine
end

section
/-! SUPPORT. When the responses since reset show no fault (spec/70_reset_and_hazards.md R101), and a listing of any
commands answered one by one (R104). -/

namespace Sys2Proof.Machine

/-- There is no first fault exactly if every error field is 0. -/
theorem firstFault_eq_zero_iff (rs : List Response) : firstFault rs = 0 ↔ ∀ r ∈ rs, r.err = 0 := by
  induction rs with
  | nil => simp [firstFault]
  | cons r older ih =>
    rw [firstFault_cons, List.forall_mem_cons, ← ih]
    split
    next hnone => exact (and_iff_left hnone).symm
    next hfault => exact iff_of_false hfault fun ⟨_, hnone⟩ => hfault hnone

theorem exec_answers_once (i : Instr) (s : State) : ∃ t r, exec i s = .next t ∧ t.responses = r :: s.responses := by
  obtain ⟨t, r, hexec, -, hresponses⟩ := (exec_answersFromBlock s i).answers_once
  exact ⟨t, r, hexec, hresponses⟩

end Sys2Proof.Machine
end

section
/-! The statements of spec/70_reset_and_hazards.md: reset from every state, `ERR` as the sign that no command faulted, and
a run of any commands with a response for each. -/

namespace Sys2Proof.Machine

/-- Settles O40, by induction on the listing: the first command adds the oldest of the new responses. -/
theorem everyRunAnswersEveryCommand : Obligations.EveryRunAnswersEveryCommand := by
  intro is
  induction is with
  | nil => exact fun s => ⟨_, runListing_nil s, withPort_port s [], [], rfl, rfl⟩
  | cons i is ih =>
    intro s
    obtain ⟨t, r, hexec, hresponses⟩ := exec_answers_once i s
    obtain ⟨u, hrun, hport, rs, hlen, hnew⟩ := ih t
    refine ⟨u, (runListing_cons hexec is).trans hrun, hport, rs ++ [r], ?_, ?_⟩
    · rw [List.length_append, hlen, List.length_singleton, List.length_cons]
    · rw [hnew, hresponses, List.append_cons]

/-- Settles O35: under the invariant `ERR` is the first fault, and that is 0 exactly if no response reports one. -/
theorem errZeroIffNoFaultSinceReset : Obligations.ErrZeroIffNoFaultSinceReset := by
  rintro s ⟨-, -, herr⟩
  rw [herr, firstFault_eq_zero_iff]

/-- Settles O2, by the two arms of `step` that reset the block. -/
theorem resetEventGivesTheResetState : Obligations.ResetEventGivesTheResetState :=
  fun _ _ => ⟨step_of_reset, fun _ => step_of_issueThenReset⟩

end Sys2Proof.Machine
end
